-- ==== Sys2Proof/Word.lean ====
section
/-! DEFINITION. The bit-vector types of the core: 00_scope.md R7 and 30_encoding.md R60. -/

namespace Sys2Proof

/-- A word: "an unsigned 32-bit value" (00_scope.md R7); `+` on it is addition modulo 2^32 (R8). -/
abbrev Word := BitVec 32

/-- A byte: "an unsigned 8-bit value" (00_scope.md R7). -/
abbrev Byte := BitVec 8

/-- A command word, 40 bits, OP in bits 39..32 and ARG in bits 31..0 (30_encoding.md R60). -/
abbrev CommandWord := BitVec 40

end Sys2Proof
end

