-- ==== Sys2Proof/Machine/Operands.lean ====
section
/-! DEFINITION. The operand forms of the command port: the fields of a command word (30_encoding.md R60, R61) and
how the fields are put together again. -/

namespace Sys2Proof.Machine

/-- `OP = c[39:32]` (R60). -/
def opField (c : CommandWord) : Byte := c.extractLsb' 32 8

/-- `ARG = c[31:0]` (R60). -/
def argField (c : CommandWord) : Word := c.extractLsb' 0 32

/-- B0 = ARG[31:24] (R61). -/
def fieldB0 (arg : Word) : Byte := arg.extractLsb' 24 8
/-- B1 = ARG[23:16] (R61). -/
def fieldB1 (arg : Word) : Byte := arg.extractLsb' 16 8
/-- B2 = ARG[15:8] (R61). -/
def fieldB2 (arg : Word) : Byte := arg.extractLsb' 8 8
/-- B3 = ARG[7:0] (R61). -/
def fieldB3 (arg : Word) : Byte := arg.extractLsb' 0 8
/-- KIDX = ARG[2:0] (R61, R65). -/
def fieldKidx (arg : Word) : BitVec 3 := arg.extractLsb' 0 3
/-- BIDX = ARG[4:0] (R61, R65). -/
def fieldBidx (arg : Word) : BitVec 5 := arg.extractLsb' 0 5

/-- The command word `OP:ARG` (R60). -/
def commandWord (op : Byte) (arg : Word) : CommandWord := op.setWidth 40 <<< 32 ||| arg.setWidth 40

/-- ARG from its four bytes, B0 most significant (R61). -/
def argOfBytes (b0 b1 b2 b3 : Byte) : Word :=
  b0.setWidth 32 <<< 24 ||| b1.setWidth 32 <<< 16 ||| b2.setWidth 32 <<< 8 ||| b3.setWidth 32

end Sys2Proof.Machine
end

