-- ==== Sys2Proof/Syntax.lean ====
section
/-! DEFINITION. The twelve commands, one constructor per row of spec/opcode_table.json (30_encoding.md R62).
Each operand has exactly the width of its field, so that no operand can be out of range (R61, R65). -/

namespace Sys2Proof

/-- A command with its operands. -/
inductive Instr where
  /-- NOP (45_control.md R140). -/
  | nop
  /-- INIT (45_control.md R141). -/
  | init
  /-- PUSH1 b0 (41_padder.md R84). -/
  | push1 (b0 : Byte)
  /-- PUSH2 b0, b1 (41_padder.md R85). -/
  | push2 (b0 b1 : Byte)
  /-- PUSH3 b0, b1, b2 (41_padder.md R86). -/
  | push3 (b0 b1 b2 : Byte)
  /-- PUSH4 b0, b1, b2, b3 (41_padder.md R87). -/
  | push4 (b0 b1 b2 b3 : Byte)
  /-- FINAL (41_padder.md R88). -/
  | final
  /-- RDWORD k, KIDX from 0 to 7 (44_serializer.md R131). -/
  | rdword (k : BitVec 3)
  /-- RDBYTE i, BIDX from 0 to 31 (44_serializer.md R132). -/
  | rdbyte (i : BitVec 5)
  /-- RDSTAT (45_control.md R142). -/
  | rdstat
  /-- RDLENLO (45_control.md R143). -/
  | rdlenlo
  /-- RDLENHI (45_control.md R144). -/
  | rdlenhi
  deriving DecidableEq, Repr

end Sys2Proof
end

