-- ==== Sys2Proof/Decode.lean ====
section
/-! DEFINITION. The decoder (30_encoding.md R71), total on every 40-bit word, and the encoder written from the same
opcode map (R62) and operand forms (R61, R72). -/

namespace Sys2Proof

open Sys2Proof.Machine

/-- Why a command word decodes to no command: its OP is not in the opcode map (R67). -/
inductive DecodeReject where
  | illegal (op : Byte)
  deriving DecidableEq, Repr

/-- The `case OP of` of R71: OP alone selects the command, then that command's subfields of ARG are read (R69). -/
def decodeFields (op : Byte) (arg : Word) : Except DecodeReject Instr :=
  if op = 0x00#8 then .ok .nop
  else if op = 0x01#8 then .ok .init
  else if op = 0x20#8 then .ok (.push1 (fieldB0 arg))
  else if op = 0x21#8 then .ok (.push2 (fieldB0 arg) (fieldB1 arg))
  else if op = 0x22#8 then .ok (.push3 (fieldB0 arg) (fieldB1 arg) (fieldB2 arg))
  else if op = 0x23#8 then .ok (.push4 (fieldB0 arg) (fieldB1 arg) (fieldB2 arg) (fieldB3 arg))
  else if op = 0x30#8 then .ok .final
  else if op = 0x40#8 then .ok (.rdword (fieldKidx arg))
  else if op = 0x41#8 then .ok (.rdbyte (fieldBidx arg))
  else if op = 0x50#8 then .ok .rdstat
  else if op = 0x51#8 then .ok .rdlenlo
  else if op = 0x52#8 then .ok .rdlenhi
  else .error (.illegal op)

/-- `Decode(c)` of R71. -/
def decode (c : CommandWord) : Except DecodeReject Instr := decodeFields (opField c) (argField c)

namespace Instr

/-- The command's value of OP (R62). -/
def opcode : Instr → Byte
  | .nop => 0x00#8
  | .init => 0x01#8
  | .push1 _ => 0x20#8
  | .push2 _ _ => 0x21#8
  | .push3 _ _ _ => 0x22#8
  | .push4 _ _ _ _ => 0x23#8
  | .final => 0x30#8
  | .rdword _ => 0x40#8
  | .rdbyte _ => 0x41#8
  | .rdstat => 0x50#8
  | .rdlenlo => 0x51#8
  | .rdlenhi => 0x52#8

/-- The command's ARG, with 0 in every bit it does not use (R66, R72). -/
def arg : Instr → Word
  | .nop => 0
  | .init => 0
  | .push1 b0 => argOfBytes b0 0 0 0
  | .push2 b0 b1 => argOfBytes b0 b1 0 0
  | .push3 b0 b1 b2 => argOfBytes b0 b1 b2 0
  | .push4 b0 b1 b2 b3 => argOfBytes b0 b1 b2 b3
  | .final => 0
  | .rdword k => k.setWidth 32
  | .rdbyte i => i.setWidth 32
  | .rdstat => 0
  | .rdlenlo => 0
  | .rdlenhi => 0

/-- The bits of ARG that the command reads: its subfields in the opcode map (R61, R62). -/
def usedArg : Instr → Word
  | .nop => 0x00000000
  | .init => 0x00000000
  | .push1 _ => 0xff000000
  | .push2 _ _ => 0xffff0000
  | .push3 _ _ _ => 0xffffff00
  | .push4 _ _ _ _ => 0xffffffff
  | .final => 0x00000000
  | .rdword _ => 0x00000007
  | .rdbyte _ => 0x0000001f
  | .rdstat => 0x00000000
  | .rdlenlo => 0x00000000
  | .rdlenhi => 0x00000000

/-- The bits of the command word that the command reads: all of OP, and `usedArg`. -/
def usedBits (i : Instr) : CommandWord := commandWord 0xff i.usedArg

/-- The message bytes a PUSH carries, in the order they enter the message (R64); none for another command. -/
def pushBytes : Instr → List Byte
  | .nop => []
  | .init => []
  | .push1 b0 => [b0]
  | .push2 b0 b1 => [b0, b1]
  | .push3 b0 b1 b2 => [b0, b1, b2]
  | .push4 b0 b1 b2 b3 => [b0, b1, b2, b3]
  | .final => []
  | .rdword _ => []
  | .rdbyte _ => []
  | .rdstat => []
  | .rdlenlo => []
  | .rdlenhi => []

end Instr

/-- The word the assembler writes for a command (R72). -/
def encode (i : Instr) : CommandWord := commandWord i.opcode i.arg

/-- The message bytes a command word pushes; none for a word that is no PUSH. -/
def pushedBytes (c : CommandWord) : List Byte :=
  match decode c with
  | .ok i => i.pushBytes
  | .error _ => []

/-- One row of spec/opcode_table.json: a word is of the row when its bits under `mask` are `pattern`. -/
structure OpcodeRow where
  mask : CommandWord
  pattern : CommandWord
  deriving DecidableEq, Repr

/-- The rows of spec/opcode_table.json, in the table's order; "`opcode_table.json` masks only OP" (R66). -/
def opcodeRows : List OpcodeRow := [
  ⟨0xff00000000, 0x0000000000⟩, ⟨0xff00000000, 0x0100000000⟩, ⟨0xff00000000, 0x2000000000⟩,
  ⟨0xff00000000, 0x2100000000⟩, ⟨0xff00000000, 0x2200000000⟩, ⟨0xff00000000, 0x2300000000⟩,
  ⟨0xff00000000, 0x3000000000⟩, ⟨0xff00000000, 0x4000000000⟩, ⟨0xff00000000, 0x4100000000⟩,
  ⟨0xff00000000, 0x5000000000⟩, ⟨0xff00000000, 0x5100000000⟩, ⟨0xff00000000, 0x5200000000⟩]

/-- The command word whose bits are `w`, numbered as spec/opcode_table.json numbers them: bit 0 of the table is bit 0
of `c`, so OP is bits 39..32 (R60). Every bit at or above `nbits` is 0 (log entry 8). -/
def tableWord (nbits w : Nat) : CommandWord := BitVec.ofNat 40 (w % 2 ^ nbits)

/-- The command the decoder reads from an opcode-table word; none where it rejects. -/
def decodeTableWord (nbits w : Nat) : Option Instr :=
  match decode (tableWord nbits w) with
  | .ok i => some i
  | .error _ => none

end Sys2Proof
end

