-- ==== Sys2Proof/Machine/Bits.lean ====
section
/-! DEFINITION. Bit and byte helpers of 00_scope.md R7 to R10: rotation, byte sequences, big-endian words. -/

namespace Sys2Proof.Machine

/-- `rotr(x, n) = (x >> n) | (x << (32-n))`, used for `n` in 1..31 only (R9, 93 U3). -/
def rotr (x : Word) (n : Nat) : Word := (x >>> n) ||| (x <<< (32 - n))

/-- `zeros(k)`: `k` bytes of 0x00 (R10). -/
def zeros (k : Nat) : List Byte := List.replicate k 0

/-- `s[i..j)`: bytes `i` to `j-1` (R10). -/
def slice (s : List Byte) (i j : Nat) : List Byte := (s.take j).drop i

/-- `BE32(s, i) = s[i]<<24 | s[i+1]<<16 | s[i+2]<<8 | s[i+3]` (R10). Every use has `i + 3` inside `s`; the 0 past the
end is never read there (log entry 4). -/
def be32 (s : List Byte) (i : Nat) : Word :=
  (s.getD i 0).setWidth 32 <<< 24 ||| (s.getD (i + 1) 0).setWidth 32 <<< 16 |||
    (s.getD (i + 2) 0).setWidth 32 <<< 8 ||| (s.getD (i + 3) 0).setWidth 32

/-- `BYTES32(w) = [w[31:24], w[23:16], w[15:8], w[7:0]]` (R10). -/
def bytes32 (w : Word) : List Byte :=
  [w.extractLsb' 24 8, w.extractLsb' 16 8, w.extractLsb' 8 8, w.extractLsb' 0 8]

/-- `BE64(v)`: byte `j` is `v[63-8j:56-8j]` for `j` in `0..7` (R10). -/
def be64 (v : BitVec 64) : List Byte := (List.range 8).map fun j => v.extractLsb' (56 - 8 * j) 8

end Sys2Proof.Machine
end

