-- ==== Sys2Proof/Machine/Scheduler.lean ====
section
/-! DEFINITION. The message scheduler (42_scheduler.md): a pure function of one block. -/

namespace Sys2Proof.Machine

/-- `gamma0(x) = rotr(x,7) xor rotr(x,18) xor (x >> 3)` (R102). -/
def gamma0 (x : Word) : Word := rotr x 7 ^^^ rotr x 18 ^^^ (x >>> 3)

/-- `gamma1(x) = rotr(x,17) xor rotr(x,19) xor (x >> 10)` (R103). -/
def gamma1 (x : Word) : Word := rotr x 17 ^^^ rotr x 19 ^^^ (x >>> 10)

/-- `W[0..15]`: `W[i] = BE32(blk, 4i)` (R100). -/
def blockWords (blk : List Byte) : List Word := (List.range 16).map fun i => be32 blk (4 * i)

/-- `W[t]` from the words before it (R101). -/
def scheduleWord (w : List Word) (t : Nat) : Word :=
  gamma1 (w.getD (t - 2) 0) + w.getD (t - 7) 0 + gamma0 (w.getD (t - 15) 0) + w.getD (t - 16) 0

/-- `Schedule(blk)`: sixteen words of the block, then `W[t]` for `t` in 16..63 in increasing `t` (R100, R101). -/
def schedule (blk : List Byte) : List Word :=
  (List.range' 16 48).foldl (fun w t => w ++ [scheduleWord w t]) (blockWords blk)

end Sys2Proof.Machine
end

