-- ==== Sys2Proof/Machine/Compressor.lean ====
section
/-! DEFINITION. The compression engine (43_compressor.md): pure functions. `W`, `a..h`, `T1` and `T2` are local values,
not state (10_state.md R29). -/

namespace Sys2Proof.Machine

/-- `sigma0(x) = rotr(x,2) xor rotr(x,13) xor rotr(x,22)` (R114). -/
def sigma0 (x : Word) : Word := rotr x 2 ^^^ rotr x 13 ^^^ rotr x 22

/-- `sigma1(x) = rotr(x,6) xor rotr(x,11) xor rotr(x,25)` (R115). -/
def sigma1 (x : Word) : Word := rotr x 6 ^^^ rotr x 11 ^^^ rotr x 25

/-- `ch(x,y,z) = (x and y) xor ((not x) and z)` (R116). -/
def ch (x y z : Word) : Word := (x &&& y) ^^^ (~~~x &&& z)

/-- `maj(x,y,z) = (x and y) xor (x and z) xor (y and z)` (R117). -/
def maj (x y z : Word) : Word := (x &&& y) ^^^ (x &&& z) ^^^ (y &&& z)

/-- The working variables `a..h` (R110). -/
structure Working where
  a : Word
  b : Word
  c : Word
  d : Word
  e : Word
  f : Word
  g : Word
  h : Word
  deriving DecidableEq, Repr

/-- `(a, ..., h) = (H[0], ..., H[7])` (R110). -/
def Working.ofState (h : Vector Word 8) : Working := ⟨h[0], h[1], h[2], h[3], h[4], h[5], h[6], h[7]⟩

/-- `T1 = (h + sigma1(e) + ch(e,f,g) + K[t] + W[t]) mod 2^32` (R111). -/
def roundT1 (k w : Word) (v : Working) : Word := v.h + sigma1 v.e + ch v.e v.f v.g + k + w

/-- `T2 = (sigma0(a) + maj(a,b,c)) mod 2^32` (R112). -/
def roundT2 (v : Working) : Word := sigma0 v.a + maj v.a v.b v.c

/-- One round: a simultaneous assignment of the eight working variables (R113). -/
def roundStep (k w : Word) (v : Working) : Working :=
  { a := roundT1 k w v + roundT2 v
    b := v.a
    c := v.b
    d := v.c
    e := v.d + roundT1 k w v
    f := v.e
    g := v.f
    h := v.g }

/-- The feed-forward: `H[i] = (H[i] + {a,...,h}[i]) mod 2^32` (R120). -/
def feedForward (h : Vector Word 8) (v : Working) : Vector Word 8 :=
  #v[h[0] + v.a, h[1] + v.b, h[2] + v.c, h[3] + v.d, h[4] + v.e, h[5] + v.f, h[6] + v.g, h[7] + v.h]

/-- `Compress(H, W)`: 64 rounds in order, then the feed-forward (R110). -/
def compress (h : Vector Word 8) (w : List Word) : Vector Word 8 :=
  feedForward h ((List.range 64).foldl (fun v t => roundStep (kTable.getD t 0) (w.getD t 0) v) (Working.ofState h))

/-- The new value of `H` when a block is processed: `Compress(H, Schedule(blk))` (R121). -/
def compressBlock (h : Vector Word 8) (blk : List Byte) : Vector Word 8 := compress h (schedule blk)

/-- One round of a compressor that computes its schedule on the fly, from "a 16-word window holding `W[t-16..t-1]`"
(42_scheduler.md R104): it consumes the window's oldest word and appends the word sixteen rounds on. -/
def rollingRound (t : Nat) (p : List Word × Working) : List Word × Working :=
  (p.1.drop 1 ++ [scheduleWord p.1 16], roundStep (kTable.getD t 0) (p.1.getD 0 0) p.2)

/-- `Compress(H, Schedule(blk))` computed with the rolling window R104 allows an implementation to use. -/
def compressRolling (h : Vector Word 8) (blk : List Byte) : Vector Word 8 :=
  feedForward h ((List.range 64).foldl (fun p t => rollingRound t p) (blockWords blk, Working.ofState h)).2

end Sys2Proof.Machine
end

