-- ==== Sys2Proof/Machine/State.lean ====
section
/-! DEFINITION. The state of the core (10_state.md) and of its command port (70_reset_and_hazards.md), as plain data. -/

namespace Sys2Proof.Machine

/-- `PHASE` (10_state.md R24). -/
inductive Phase where
  /-- ABSORB, encoded 0: message bytes and FINAL are accepted. -/
  | absorb
  /-- DONE, encoded 1: `H` holds the digest. -/
  | done
  deriving DecidableEq, Repr

/-- The error codes (60_exceptions.md R161). -/
inductive ErrCode where
  /-- 0 NONE: the value of `ERR_CODE` when `ERR` = 0. -/
  | noError
  /-- 1 ILLEGAL: OP is not in the opcode map (R162). -/
  | illegal
  /-- 2 SEQUENCE: PUSH or FINAL in phase DONE (R163). -/
  | sequence
  /-- 3 NOT_DONE: RDWORD or RDBYTE in phase ABSORB (R164). -/
  | notDone
  deriving DecidableEq, Repr

/-- The persistent state of one core: exactly the record of 10_state.md R20. -/
structure CoreState where
  /-- `H[0..7]` (R21). -/
  h : Vector Word 8
  /-- `BUF[0..BUF_LEN)`, the defined bytes only, as R22 allows (log entry 3). -/
  buf : List Byte
  /-- `PHASE` (R24). -/
  phase : Phase
  /-- `LEN` (R25). -/
  len : BitVec 64
  /-- `ERR` (R26). -/
  err : Bool
  /-- `ERR_CODE` (R26). -/
  errCode : ErrCode
  deriving DecidableEq, Repr

/-- `BUF_LEN` (10_state.md R23), the number of bytes held in `BUF`. -/
def CoreState.bufLen (c : CoreState) : Nat := c.buf.length

/-- A response `(ok, data)` (30_encoding.md R70). -/
structure Response where
  ok : Bool
  data : Word
  deriving DecidableEq, Repr

/-- What happens at the command port, one transaction each (00_scope.md R12). -/
inductive PortEvent where
  /-- The core accepts this command word (70_reset_and_hazards.md R184). -/
  | command (c : CommandWord)
  /-- `rst` is asserted between two commands (R180). -/
  | reset
  /-- `rst` is asserted while this command is in progress (R181). -/
  | resetDuring (c : CommandWord)
  deriving DecidableEq, Repr

/-- The core and its command port. -/
structure State where
  /-- The core's own state (10_state.md R20). -/
  core : CoreState
  /-- The response on the port; `none` is `rsp_valid` = 0 (70_reset_and_hazards.md R186; log entry 5). -/
  rsp : Option Response
  /-- What the host still presents, the next first: the model's own field (log entry 1). -/
  inputs : List PortEvent
  deriving DecidableEq, Repr

/-- The reasons to stop with a fault: there are none. The spec has no stuck case (93_implementation_defined.md: "No case
is `stuck`"), and a rejected command is a next state (60_exceptions.md R166). See log entry 13. -/
inductive Fault where
  deriving DecidableEq, Repr

/-- The reasons to refuse. -/
inductive Refusal where
  /-- Raised by an arm of `exec` for a command that has no meaning yet; no arm does. Safe. -/
  | notModelled (mnemonic : String)
  /-- Raised by a clock edge of Machine/Handshake.lean when the host changes or drops a command that it presented and
  the core has not accepted: 93_implementation_defined.md U8, "refuse (host duty)"; no command and no `step` raises it.
  Safe (log entry 11). -/
  | handshakeViolation
  deriving DecidableEq, Repr

/-- The reset state of the core, `s_reset` (10_state.md R33, 70_reset_and_hazards.md R180). -/
def CoreState.reset : CoreState :=
  { h := iv, buf := [], phase := .absorb, len := 0, err := false, errCode := .noError }

/-- The machine right after reset: the core in `s_reset`, no response pending (R33, R181), and nothing presented yet
(log entries 1, 2). -/
def State.reset : State := { core := CoreState.reset, rsp := none, inputs := [] }

end Sys2Proof.Machine
end

