-- ==== Sys2Proof/Machine/Flags.lean ====
section
/-! DEFINITION. The flags and the STATUS word (10_state.md R24, R32, R36, 60_exceptions.md R161). There are no
arithmetic flags (R36). -/

namespace Sys2Proof.Machine

/-- The encoding of `PHASE`: ABSORB 0, DONE 1 (R24). -/
def Phase.bit : Phase → BitVec 1
  | .absorb => 0
  | .done => 1

/-- The encoding of an error code (60_exceptions.md R161). -/
def ErrCode.bits : ErrCode → BitVec 2
  | .noError => 0
  | .illegal => 1
  | .sequence => 2
  | .notDone => 3

/-- `zext_32(code)`, the data of a rejection's response (30_encoding.md R70). -/
def ErrCode.word (e : ErrCode) : Word := e.bits.setWidth 32

/-- `STATUS = zext_32(BUF_LEN[5:0]) << 8 | zext_32(ERR_CODE[1:0]) << 2 | zext_32(ERR) << 1 | (PHASE == DONE ? 1 : 0)`
(R32). -/
def statusWord (c : CoreState) : Word :=
  (BitVec.ofNat 6 c.bufLen).setWidth 32 <<< 8 ||| c.errCode.bits.setWidth 32 <<< 2 |||
    (BitVec.ofBool c.err).setWidth 32 <<< 1 ||| c.phase.bit.setWidth 32

end Sys2Proof.Machine
end

