-- ==== Sys2Proof/Config.lean ====
section
/-! DEFINITION. What is fixed for the hardware: the parameters of 00_scope.md R6 ("None is left open to the model"),
and the one value the spec leaves to the implementation, the latency of a command (70_reset_and_hazards.md R190). -/

namespace Sys2Proof.Config

/-- WORD_BITS (R6). -/
def wordBits : Nat := 32
/-- STATE_WORDS (R6). -/
def stateWords : Nat := 8
/-- BLOCK_BYTES (R6). -/
def blockBytes : Nat := 64
/-- SCHED_WORDS (R6). -/
def schedWords : Nat := 64
/-- ROUNDS (R6). -/
def rounds : Nat := 64
/-- K_WORDS (R6). -/
def kWords : Nat := 64
/-- DIGEST_BYTES (R6). -/
def digestBytes : Nat := 32
/-- LEN_FIELD_BITS (R6). -/
def lenFieldBits : Nat := 64
/-- MARKER, the first padding byte (R6). -/
def marker : Byte := 0x80
/-- LEN_COUNTER_BITS (R6). -/
def lenCounterBits : Nat := 64
/-- PUSH_MAX_BYTES (R6). -/
def pushMaxBytes : Nat := 4
/-- OP_BITS (R6). -/
def opBits : Nat := 8
/-- ARG_BITS (R6). -/
def argBits : Nat := 32
/-- RSP_DATA_BITS (R6). -/
def rspDataBits : Nat := 32

/-- FREE VALUE (log entry 9). The clock cycles a command takes beyond the one every command takes, from the command
word and the number of blocks it compresses: "a per-command parameter `lat(cmd, blocks compressed) >= 1`, finite"
(93_implementation_defined.md U4). It has no body: no claim can rest on a number. -/
opaque extraLatency : CommandWord → Nat → Nat

end Sys2Proof.Config
end

