-- ==== Sys2Proof/Machine/Padding.lean ====
section
/-! DEFINITION. The padding function of the source (41_padder.md R80 to R82): pure functions of byte sequences. -/

namespace Sys2Proof.Machine

/-- `BitLen(n) = (n * 8) mod 2^64` (R81). -/
def bitLen (n : Nat) : BitVec 64 := BitVec.ofNat 64 (n * 8)

/-- `(55 - r) mod 64` zero bytes (R82); the subtraction is of integers. -/
def zeroCount (r : Nat) : Nat := ((55 - (r : Int)) % 64).toNat

/-- `P = t ‖ [0x80] ‖ zeros(z) ‖ BE64(L)` (R82). -/
def paddedTail (t : List Byte) (l : BitVec 64) : List Byte :=
  t ++ [Config.marker] ++ zeros (zeroCount t.length) ++ be64 l

/-- `PadTail(t, L)`: one block if `r <= 55`, else two (R82). -/
def padTail (t : List Byte) (l : BitVec 64) : List (List Byte) :=
  if t.length ≤ 55 then [slice (paddedTail t l) 0 64]
  else [slice (paddedTail t l) 0 64, slice (paddedTail t l) 64 128]

/-- The full 64-byte windows of a message, in order: `m[64q .. 64q+64)` for `q` in `0 .. floor(n/64)-1` (R80). -/
def fullBlocks (m : List Byte) : List (List Byte) :=
  (List.range (m.length / 64)).map fun q => slice m (64 * q) (64 * q + 64)

/-- The last partial window of a message, `m[n-r .. n)` with `r = n mod 64` (R80). -/
def partialWindow (m : List Byte) : List Byte := slice m (m.length - m.length % 64) m.length

/-- `Pad(m)` (R80). -/
def pad (m : List Byte) : List (List Byte) :=
  fullBlocks m ++ padTail (partialWindow m) (bitLen m.length)

end Sys2Proof.Machine
end

