-- ==== Sys2Proof/Machine/Ops.lean ====
section
/-! DEFINITION. The shared operations of the commands: answering, rejecting (60_exceptions.md R166), absorbing bytes
(41_padder.md R83), finalizing, and reset (70_reset_and_hazards.md R180). -/

namespace Sys2Proof.Machine

/-- A command that is accepted: the core's new state and `respond(1, data)` (30_encoding.md R70). -/
def accept (c : CoreState) (data : Word) (s : State) : Host.Outcome State Fault Refusal :=
  .next { s with core := c, rsp := some { ok := true, data := data } }

/-- The error bits after a rejection: `ERR <- 1`, and `ERR_CODE <- code` if `ERR` was 0 (60_exceptions.md R166, R167). -/
def recordError (code : ErrCode) (c : CoreState) : CoreState :=
  { c with err := true, errCode := if c.err then c.errCode else code }

/-- `raise CmdError(code)`: this hardware's exception. Nothing but the error bits changes, the response is
`(0, zext_32(code))`, and "Control does not go anywhere" (60_exceptions.md R166). -/
def reject (code : ErrCode) (s : State) : Host.Outcome State Fault Refusal :=
  .next { s with core := recordError code s.core, rsp := some { ok := false, data := code.word } }

/-- `ProcessBlock(blk): H <- Compress(H, Schedule(blk))` (43_compressor.md R121). -/
def processBlock (blk : List Byte) (c : CoreState) : CoreState := { c with h := compressBlock c.h blk }

/-- The append of `AbsorbByte(b)`: `BUF[BUF_LEN] <- b`, `BUF_LEN + 1`, `LEN + 1` modulo 2^64 (41_padder.md R83). -/
def appendByte (b : Byte) (c : CoreState) : CoreState := { c with buf := c.buf ++ [b], len := c.len + 1 }

/-- The end of `AbsorbByte(b)`: a full window is processed and `BUF_LEN <- 0` (41_padder.md R83). -/
def flushFull (c : CoreState) : CoreState :=
  if c.bufLen = 64 then { processBlock c.buf c with buf := [] } else c

/-- `AbsorbByte(b)` (41_padder.md R83). -/
def absorbByte (c : CoreState) (b : Byte) : CoreState := flushFull (appendByte b c)

/-- `AbsorbByte` of each byte, in order. -/
def absorbBytes (bs : List Byte) (c : CoreState) : CoreState := bs.foldl absorbByte c

/-- A PUSH of the bytes `bs`: SEQUENCE if `PHASE` = DONE, checked before any byte, else every byte is absorbed
(41_padder.md R84 to R87). -/
def pushCommand (bs : List Byte) (s : State) : Host.Outcome State Fault Refusal :=
  match s.core.phase with
  | .done => reject .sequence s
  | .absorb => accept (absorbBytes bs s.core) 0 s

/-- The bit length that FINAL embeds: `L = (LEN * 8) mod 2^64` (41_padder.md R81, R88). -/
def lengthField (c : CoreState) : BitVec 64 := c.len * 8

/-- The effect of an accepted FINAL: the tail blocks processed in order, `BUF_LEN <- 0`, `PHASE <- DONE` (R88). -/
def finalize (c : CoreState) : CoreState :=
  { (padTail c.buf (lengthField c)).foldl (fun c blk => processBlock blk c) c with buf := [], phase := .done }

/-- A read of the digest: NOT_DONE if `PHASE` = ABSORB, else the data with no change of state (44_serializer.md R131,
R132). -/
def readDigest (data : CoreState → Word) (s : State) : Host.Outcome State Fault Refusal :=
  match s.core.phase with
  | .absorb => reject .notDone s
  | .done => accept s.core (data s.core) s

/-- `Reset(s) = s_reset`, from any state; no response is left (70_reset_and_hazards.md R180, R181). What the host has
still to present is no part of the core and stays. -/
def resetMachine (s : State) : State := { s with core := CoreState.reset, rsp := none }

end Sys2Proof.Machine
end

