-- ==== Sys2Proof/Machine/Control.lean ====
section
/-! DEFINITION. The control and status commands (45_control.md): NOP, INIT, RDSTAT, RDLENLO, RDLENHI. -/

namespace Sys2Proof.Machine

/-- NOP: `respond(1, 0x00000000)` (R140). -/
def execNop (s : State) : Host.Outcome State Fault Refusal := accept s.core 0 s

/-- INIT: `H <- IV`, `BUF_LEN`, `LEN`, `PHASE` and the error bits cleared (R141). -/
def execInit (s : State) : Host.Outcome State Fault Refusal :=
  accept { h := iv, buf := [], phase := .absorb, len := 0, err := false, errCode := .noError } 0 s

/-- RDSTAT: `respond(1, STATUS)` (R142). -/
def execRdstat (s : State) : Host.Outcome State Fault Refusal := accept s.core (statusWord s.core) s

/-- RDLENLO: `respond(1, LEN[31:0])` (R143). -/
def execRdlenlo (s : State) : Host.Outcome State Fault Refusal := accept s.core (s.core.len.extractLsb' 0 32) s

/-- RDLENHI: `respond(1, LEN[63:32])` (R144). -/
def execRdlenhi (s : State) : Host.Outcome State Fault Refusal := accept s.core (s.core.len.extractLsb' 32 32) s

end Sys2Proof.Machine
end

