-- ==== Sys2Proof/Machine/Padder.lean ====
section
/-! DEFINITION. The padder's commands (41_padder.md): PUSH1 to PUSH4 and FINAL. -/

namespace Sys2Proof.Machine

/-- PUSH1 (R84). -/
def execPush1 (b0 : Byte) (s : State) : Host.Outcome State Fault Refusal := pushCommand [b0] s

/-- PUSH2: B0 then B1 (R85). -/
def execPush2 (b0 b1 : Byte) (s : State) : Host.Outcome State Fault Refusal := pushCommand [b0, b1] s

/-- PUSH3: B0, B1, then B2 (R86). -/
def execPush3 (b0 b1 b2 : Byte) (s : State) : Host.Outcome State Fault Refusal := pushCommand [b0, b1, b2] s

/-- PUSH4: B0, B1, B2, then B3 (R87). -/
def execPush4 (b0 b1 b2 b3 : Byte) (s : State) : Host.Outcome State Fault Refusal := pushCommand [b0, b1, b2, b3] s

/-- FINAL: SEQUENCE if `PHASE` = DONE, else the padding and the last block or blocks (R88). -/
def execFinal (s : State) : Host.Outcome State Fault Refusal :=
  match s.core.phase with
  | .done => reject .sequence s
  | .absorb => accept (finalize s.core) 0 s

end Sys2Proof.Machine
end

