-- ==== Sys2Proof/Machine/Hash.lean ====
section
/-! DEFINITION. `Serialize(H)` (44_serializer.md R130) and the hash function the core computes (00_scope.md R3, R13,
41_padder.md R92). -/

namespace Sys2Proof.Machine

/-- `Serialize(H) = BYTES32(H[0]) ‖ … ‖ BYTES32(H[7])` (R130). -/
def serialize (h : Vector Word 8) : List Byte := h.toList.flatMap bytes32

/-- `hash(m)` of the source: the serialization of `fold(ProcessBlock, IV, Pad(m))` (R92). -/
def hashBytes (m : List Byte) : List Byte := serialize ((pad m).foldl compressBlock iv)

end Sys2Proof.Machine
end

