-- ==== Sys2Proof/Machine/Serializer.lean ====
section
/-! DEFINITION. The serializer's commands (44_serializer.md): RDWORD and RDBYTE. -/

namespace Sys2Proof.Machine

/-- `H[KIDX]` (R131). -/
def digestWord (k : BitVec 3) (c : CoreState) : Word := c.h[k.toNat]'(k.isLt)

/-- `zext_32(Serialize(H)[BIDX])` (R132). The digest has 32 bytes, so the index is always inside it (20_memory.md R41). -/
def digestByte (i : BitVec 5) (c : CoreState) : Word := ((serialize c.h).getD i.toNat 0).setWidth 32

/-- RDWORD (R131). -/
def execRdword (k : BitVec 3) (s : State) : Host.Outcome State Fault Refusal := readDigest (digestWord k) s

/-- RDBYTE (R132). -/
def execRdbyte (i : BitVec 5) (s : State) : Host.Outcome State Fault Refusal := readDigest (digestByte i) s

end Sys2Proof.Machine
end

