-- ==== Sys2Proof/Machine/Dispatch.lean ====
section
/-! DEFINITION. Command dispatch (45_control.md R146): one arm per command. -/

namespace Sys2Proof.Machine

def exec (i : Instr) (s : State) : Host.Outcome State Fault Refusal :=
  match i with
  | .nop => Sys2Proof.Machine.execNop s
  | .init => Sys2Proof.Machine.execInit s
  | .push1 b0 => Sys2Proof.Machine.execPush1 b0 s
  | .push2 b0 b1 => Sys2Proof.Machine.execPush2 b0 b1 s
  | .push3 b0 b1 b2 => Sys2Proof.Machine.execPush3 b0 b1 b2 s
  | .push4 b0 b1 b2 b3 => Sys2Proof.Machine.execPush4 b0 b1 b2 b3 s
  | .final => Sys2Proof.Machine.execFinal s
  | .rdword k => Sys2Proof.Machine.execRdword k s
  | .rdbyte n => Sys2Proof.Machine.execRdbyte n s
  | .rdstat => Sys2Proof.Machine.execRdstat s
  | .rdlenlo => Sys2Proof.Machine.execRdlenlo s
  | .rdlenhi => Sys2Proof.Machine.execRdlenhi s

end Sys2Proof.Machine
end

