-- ==== Sys2Proof/Machine/Command.lean ====
section
/-! DEFINITION. Running command words and port events (45_control.md R146, 00_scope.md R12, 20_memory.md R53). -/

namespace Sys2Proof.Machine

/-- `Step(s, c)` of 00_scope.md R12 and 45_control.md R146: decode, then run the command, or reject the word with
ILLEGAL. The response is left on the port. -/
def runCommand (c : CommandWord) (s : State) : Host.Outcome State Fault Refusal :=
  match decode c with
  | .ok i => exec i s
  | .error (.illegal _) => reject .illegal s

/-- One event at the port. A command cut short by reset has no effect and gives no response (70_reset_and_hazards.md
R180, R181). -/
def applyEvent (e : PortEvent) (s : State) : Host.Outcome State Fault Refusal :=
  match e with
  | .command c => runCommand c s
  | .reset => .next (resetMachine s)
  | .resetDuring _ => .next (resetMachine s)

/-- Events one after the other (20_memory.md R53), up to the first stop. -/
def applyEvents : List PortEvent → State → Host.Outcome State Fault Refusal
  | [], s => .next s
  | e :: es, s =>
    match applyEvent e s with
    | .next s' => applyEvents es s'
    | .fault f => .fault f
    | .refused r => .refused r

/-- The step of the machine. It takes the next event the host presents; with none presented "An idle core keeps all of
its state" (60_exceptions.md R177). -/
def stepPort (s : State) : Host.Outcome State Fault Refusal :=
  match s.inputs with
  | [] => .next s
  | e :: es => applyEvent e { s with inputs := es }

/-- Run command words in acceptance order and record every response (20_memory.md R53; "The model records every
response", 93 U9). -/
def runCommands : List CommandWord → State → Host.Outcome (State × List Response) Fault Refusal
  | [], s => .next (s, [])
  | c :: cs, s =>
    match runCommand c s with
    | .fault f => .fault f
    | .refused r => .refused r
    | .next s' =>
      match runCommands cs s' with
      | .next (s'', rs) => .next (s'', s'.rsp.toList ++ rs)
      | .fault f => .fault f
      | .refused r => .refused r

/-- The number of blocks a command compresses, the second argument of `lat(cmd, blocks compressed)`
(93_implementation_defined.md U4; 70_reset_and_hazards.md R190): a push of `NB` bytes completes
`floor((BUF_LEN + NB) / 64)` windows, FINAL builds one or two tail blocks, a rejected command compresses none. -/
def blocksCompressed (w : CommandWord) (c : CoreState) : Nat :=
  match c.phase with
  | .done => 0
  | .absorb =>
    match decode w with
    | .ok .final => (padTail c.buf (lengthField c)).length
    | .ok i => if i.pushBytes = [] then 0 else (c.bufLen + i.pushBytes.length) / 64
    | .error _ => 0

end Sys2Proof.Machine
end

