-- ==== Sys2Proof/Machine/Step.lean ====
section
/-! DEFINITION. One step of the machine, and how a command word is presented to it. -/

namespace Sys2Proof.Machine

/-- One transaction at the command port. -/
def step (s : State) : Host.Outcome State Fault Refusal := stepPort s

/-- The host presents this opcode-table word next. The core fetches nothing (20_memory.md R56): a command comes from the
port, so it is put at the head of what the host presents (log entry 2). -/
def State.withFetchWord (s : State) (nbits w : Nat) : State :=
  { s with inputs := .command (tableWord nbits w) :: s.inputs }

end Sys2Proof.Machine
end

