-- ==== Sys2Proof/WellFormed.lean ====
section
/-! DEFINITION. When a command as a programmer writes it is well formed (30_encoding.md R72). The operands of `Instr`
have the widths of their fields, so every `Instr` is well formed; what can be ill formed is a SOURCE command, a mnemonic
with operand numbers: the assembler "refuses an operand out of range or a wrong operand count" (R72). -/

namespace Sys2Proof

/-- What an operand of a command is (30_encoding.md R72): a byte, an index of a digest word, an index of a digest byte. -/
inductive OperandKind where
  | byte
  | wordIndex
  | byteIndex
  deriving DecidableEq, Repr

/-- The operand's values lie below this: 0 to 255, k 0..7, i 0..31 (R72). -/
def OperandKind.limit : OperandKind → Nat
  | .byte => 256
  | .wordIndex => 8
  | .byteIndex => 32

/-- A command as it is written: the mnemonic's characters in capitals (mnemonics are case-insensitive, R72) and the
operand numbers, unchecked. -/
structure SourceCommand where
  mnemonic : List Char
  operands : List Nat
  deriving DecidableEq, Repr

/-- The operands each mnemonic takes, in order (the table of R72); `none` for a mnemonic that is not in it. -/
def operandKinds (m : List Char) : Option (List OperandKind) :=
  if m = ['N', 'O', 'P'] then some []
  else if m = ['I', 'N', 'I', 'T'] then some []
  else if m = ['P', 'U', 'S', 'H', '1'] then some [.byte]
  else if m = ['P', 'U', 'S', 'H', '2'] then some [.byte, .byte]
  else if m = ['P', 'U', 'S', 'H', '3'] then some [.byte, .byte, .byte]
  else if m = ['P', 'U', 'S', 'H', '4'] then some [.byte, .byte, .byte, .byte]
  else if m = ['F', 'I', 'N', 'A', 'L'] then some []
  else if m = ['R', 'D', 'W', 'O', 'R', 'D'] then some [.wordIndex]
  else if m = ['R', 'D', 'B', 'Y', 'T', 'E'] then some [.byteIndex]
  else if m = ['R', 'D', 'S', 'T', 'A', 'T'] then some []
  else if m = ['R', 'D', 'L', 'E', 'N', 'L', 'O'] then some []
  else if m = ['R', 'D', 'L', 'E', 'N', 'H', 'I'] then some []
  else none

namespace SourceCommand

/-- The kinds of the operands this command should have; none for an unknown mnemonic. -/
def kinds (c : SourceCommand) : List OperandKind := (operandKinds c.mnemonic).getD []

/-- The mnemonic is one of the twelve. -/
def knownMnemonic (c : SourceCommand) : Bool := (operandKinds c.mnemonic).isSome

/-- The operand count is the mnemonic's. -/
def countOk (c : SourceCommand) : Bool := c.operands.length == c.kinds.length

/-- Every operand lies in the range of its field. -/
def rangeOk (c : SourceCommand) : Bool := (c.operands.zip c.kinds).all fun p => decide (p.1 < p.2.limit)

/-- A source command the assembler accepts (R72). -/
def wf (c : SourceCommand) : Bool := c.knownMnemonic && c.countOk && c.rangeOk

end SourceCommand

end Sys2Proof
end

