-- ==== Sys2Proof/Machine/Assembler.lean ====
section
/-! DEFINITION. The assembler of 30_encoding.md R72 and the pseudo-instructions of R73, from program text to command
words. It is not part of the hardware (92 D33). -/

namespace Sys2Proof.Machine

/-- What the assembler refuses. -/
inductive AsmError where
  /-- A character or a quotation the syntax has no place for. -/
  | badText
  /-- A mnemonic that R72 and R73 do not have. -/
  | unknownMnemonic
  /-- An operand that is no number and no character literal. -/
  | badOperand
  /-- "a wrong operand count" (R72). -/
  | operandCount
  /-- "an operand out of range" (R72). -/
  | operandRange
  deriving DecidableEq, Repr

/-- The pieces of a line. -/
inductive Token where
  | word (cs : List Char)
  | literal (c : Char)
  | text (cs : List Char)
  | comma
  deriving DecidableEq, Repr

/-- The command of a mnemonic and operands of its count and range (the table of R72). -/
def instrOf (m : List Char) (ops : List Nat) : Option Instr :=
  match ops with
  | [] =>
    if m = ['N', 'O', 'P'] then some .nop
    else if m = ['I', 'N', 'I', 'T'] then some .init
    else if m = ['F', 'I', 'N', 'A', 'L'] then some .final
    else if m = ['R', 'D', 'S', 'T', 'A', 'T'] then some .rdstat
    else if m = ['R', 'D', 'L', 'E', 'N', 'L', 'O'] then some .rdlenlo
    else if m = ['R', 'D', 'L', 'E', 'N', 'H', 'I'] then some .rdlenhi
    else none
  | [a] =>
    if m = ['P', 'U', 'S', 'H', '1'] then some (.push1 (BitVec.ofNat 8 a))
    else if m = ['R', 'D', 'W', 'O', 'R', 'D'] then some (.rdword (BitVec.ofNat 3 a))
    else if m = ['R', 'D', 'B', 'Y', 'T', 'E'] then some (.rdbyte (BitVec.ofNat 5 a))
    else none
  | [a, b] =>
    if m = ['P', 'U', 'S', 'H', '2'] then some (.push2 (BitVec.ofNat 8 a) (BitVec.ofNat 8 b)) else none
  | [a, b, c] =>
    if m = ['P', 'U', 'S', 'H', '3'] then some (.push3 (BitVec.ofNat 8 a) (BitVec.ofNat 8 b) (BitVec.ofNat 8 c))
    else none
  | [a, b, c, d] =>
    if m = ['P', 'U', 'S', 'H', '4'] then
      some (.push4 (BitVec.ofNat 8 a) (BitVec.ofNat 8 b) (BitVec.ofNat 8 c) (BitVec.ofNat 8 d))
    else none
  | _ :: _ :: _ :: _ :: _ :: _ => none

/-- Assemble one command, with the checks of R72 in the order mnemonic, operand count, operand range. -/
def assembleCommand (c : SourceCommand) : Except AsmError Instr :=
  if c.knownMnemonic = false then .error .unknownMnemonic
  else if c.countOk = false then .error .operandCount
  else if c.rangeOk = false then .error .operandRange
  else
    match instrOf c.mnemonic c.operands with
    | some i => .ok i
    | none => .error .unknownMnemonic

/-- How a command is written (the forms of R72). -/
def sourceOf : Instr → SourceCommand
  | .nop => ⟨['N', 'O', 'P'], []⟩
  | .init => ⟨['I', 'N', 'I', 'T'], []⟩
  | .push1 b0 => ⟨['P', 'U', 'S', 'H', '1'], [b0.toNat]⟩
  | .push2 b0 b1 => ⟨['P', 'U', 'S', 'H', '2'], [b0.toNat, b1.toNat]⟩
  | .push3 b0 b1 b2 => ⟨['P', 'U', 'S', 'H', '3'], [b0.toNat, b1.toNat, b2.toNat]⟩
  | .push4 b0 b1 b2 b3 => ⟨['P', 'U', 'S', 'H', '4'], [b0.toNat, b1.toNat, b2.toNat, b3.toNat]⟩
  | .final => ⟨['F', 'I', 'N', 'A', 'L'], []⟩
  | .rdword k => ⟨['R', 'D', 'W', 'O', 'R', 'D'], [k.toNat]⟩
  | .rdbyte i => ⟨['R', 'D', 'B', 'Y', 'T', 'E'], [i.toNat]⟩
  | .rdstat => ⟨['R', 'D', 'S', 'T', 'A', 'T'], []⟩
  | .rdlenlo => ⟨['R', 'D', 'L', 'E', 'N', 'L', 'O'], []⟩
  | .rdlenhi => ⟨['R', 'D', 'L', 'E', 'N', 'H', 'I'], []⟩

/-- The PUSH commands for a byte sequence: `floor(m/4)` PUSH4, then one PUSH of the `m mod 4` remaining bytes if any
(R73). -/
def pushSequence : List Byte → List Instr
  | [] => []
  | [a] => [.push1 a]
  | [a, b] => [.push2 a b]
  | [a, b, c] => [.push3 a b c]
  | a :: b :: c :: d :: rest => .push4 a b c d :: pushSequence rest

/-- `HASH`: INIT, the message, FINAL (R73). -/
def hashSequence (m : List Byte) : List Instr := .init :: (pushSequence m ++ [.final])

/-- `RDDIGEST`: RDWORD 0 to RDWORD 7, in order (R73). -/
def readDigestSequence : List Instr := (List.range 8).map fun k => .rdword (BitVec.ofNat 3 k)

/-- A letter in capitals: "Mnemonics are case-insensitive" (R72). -/
def upperChar (c : Char) : Char :=
  if 97 ≤ c.toNat ∧ c.toNat ≤ 122 then Char.ofNat (c.toNat - 32) else c

/-- The value of a decimal digit. -/
def decimalDigit (c : Char) : Option Nat :=
  if 48 ≤ c.toNat ∧ c.toNat ≤ 57 then some (c.toNat - 48) else none

/-- The value of a hexadecimal digit. -/
def hexDigit (c : Char) : Option Nat :=
  if 48 ≤ c.toNat ∧ c.toNat ≤ 57 then some (c.toNat - 48)
  else if 97 ≤ c.toNat ∧ c.toNat ≤ 102 then some (c.toNat - 87)
  else if 65 ≤ c.toNat ∧ c.toNat ≤ 70 then some (c.toNat - 55)
  else none

/-- Digits to a number, most significant first; none if a character is no digit. -/
def digitsValue (base : Nat) (digit : Char → Option Nat) : Nat → List Char → Option Nat
  | acc, [] => some acc
  | acc, c :: cs =>
    match digit c with
    | some d => digitsValue base digit (acc * base + d) cs
    | none => none

/-- A number: decimal, or hexadecimal with `0x` (R72). -/
def number (cs : List Char) : Option Nat :=
  match cs with
  | [] => none
  | ['0', 'x'] => none
  | '0' :: 'x' :: ds => digitsValue 16 hexDigit 0 ds
  | c :: ds => digitsValue 10 decimalDigit 0 (c :: ds)

/-- The characters a mnemonic, a number or the `OP:ARG` of `.word` is made of. -/
def isWordChar (c : Char) : Bool :=
  (decimalDigit c).isSome || decide (65 ≤ (upperChar c).toNat ∧ (upperChar c).toNat ≤ 90) || c == '.' || c == ':'

/-- The pieces of one line, up to its comment. A quotation's own characters are taken as they stand (log entry 12). The
number bounds the characters still to read. -/
def lexLine : Nat → List Char → Option (List Token)
  | 0, _ => some []
  | _ + 1, [] => some []
  | fuel + 1, c :: cs =>
    if c = ';' then some []
    else if c = ' ' ∨ c = '\t' ∨ c = '\r' then lexLine fuel cs
    else if c = ',' then (lexLine fuel cs).map (Token.comma :: ·)
    else if c = '\'' then
      match cs with
      | x :: '\'' :: rest => (lexLine fuel rest).map (Token.literal x :: ·)
      | _ => none
    else if c = '"' then
      match cs.dropWhile (· != '"') with
      | _ :: rest => (lexLine fuel rest).map (Token.text (cs.takeWhile (· != '"')) :: ·)
      | [] => none
    else if isWordChar c then
      (lexLine fuel (cs.dropWhile isWordChar)).map (Token.word (c :: cs.takeWhile isWordChar) :: ·)
    else none

/-- "that character's ASCII code" (R72). -/
def asciiCode (c : Char) : Option Nat := if c.toNat < 128 then some c.toNat else none

/-- The number an operand stands for. -/
def operandValue : Token → Option Nat
  | .word cs => number cs
  | .literal c => asciiCode c
  | .text _ => none
  | .comma => none

/-- Operands "separated by commas" (R72). -/
def operandValues : List Token → Option (List Nat)
  | [] => some []
  | [t] => (operandValue t).map fun n => [n]
  | t :: .comma :: u :: rest =>
    match operandValue t, operandValues (u :: rest) with
    | some n, some ns => some (n :: ns)
    | _, _ => none
  | _ :: _ => none

/-- The ASCII codes of a text, as bytes (R73). -/
def textBytes (cs : List Char) : Option (List Byte) :=
  match cs with
  | [] => some []
  | c :: rest =>
    match asciiCode c, textBytes rest with
    | some n, some bs => some (BitVec.ofNat 8 n :: bs)
    | _, _ => none

/-- A command of R72, or `PUSH`, `PUSHB` or `RDDIGEST` of R73, with its operand numbers. -/
def assembleNumbers (m : List Char) (ops : List Nat) : Except AsmError (List Instr) :=
  if m = ['P', 'U', 'S', 'H'] then
    if ops = [] ∨ 4 < ops.length then .error .operandCount
    else if ops.all (· < 256) then .ok (pushSequence (ops.map (BitVec.ofNat 8)))
    else .error .operandRange
  else if m = ['P', 'U', 'S', 'H', 'B'] then
    if ops.all (· < 256) then .ok (pushSequence (ops.map (BitVec.ofNat 8))) else .error .operandRange
  else if m = ['R', 'D', 'D', 'I', 'G', 'E', 'S', 'T'] then
    if ops = [] then .ok readDigestSequence else .error .operandCount
  else
    match assembleCommand ⟨m, ops⟩ with
    | .ok i => .ok [i]
    | .error e => .error e

/-- The word of `.word OP:ARG`, two and eight hexadecimal digits (R60, R72). -/
def rawWord (cs : List Char) : Option CommandWord :=
  match cs with
  | a :: b :: ':' :: arg =>
    if arg.length = 8 then
      match digitsValue 16 hexDigit 0 [a, b], digitsValue 16 hexDigit 0 arg with
      | some op, some n => some (commandWord (BitVec.ofNat 8 op) (BitVec.ofNat 32 n))
      | _, _ => none
    else none
  | _ => none

/-- An index operand written as a character literal: R72 gives the literal to byte operands only. -/
def indexIsLiteral (m : List Char) (ts : List Token) : Bool :=
  (m == ['R', 'D', 'W', 'O', 'R', 'D'] || m == ['R', 'D', 'B', 'Y', 'T', 'E']) &&
    ts.any fun t => match t with
      | .literal _ => true
      | .word _ => false
      | .text _ => false
      | .comma => false

/-- The command words of one line's pieces. Two points R72 leaves open are the model's choice (log entry 12): a line with
no piece, empty or comment only, gives no command; and `.word` is case-insensitive as a mnemonic is. -/
def assembleTokens (ts : List Token) : Except AsmError (List CommandWord) :=
  match ts with
  | [] => .ok []
  | .word cs :: rest =>
    let m := cs.map upperChar
    if m = ['.', 'W', 'O', 'R', 'D'] then
      match rest with
      | [.word w] =>
        match rawWord w with
        | some c => .ok [c]
        | none => .error .badOperand
      | _ => .error .operandCount
    else if m = ['P', 'U', 'S', 'H', 'S'] ∨ m = ['H', 'A', 'S', 'H'] then
      match rest with
      | [.text t] =>
        match textBytes t with
        | some bs =>
          if m = ['H', 'A', 'S', 'H'] then .ok ((hashSequence bs).map encode) else .ok ((pushSequence bs).map encode)
        | none => .error .operandRange
      | _ => .error .operandCount
    else
      match if indexIsLiteral m rest then none else operandValues rest with
      | none => .error .badOperand
      | some ops =>
        match assembleNumbers m ops with
        | .ok is => .ok (is.map encode)
        | .error e => .error e
  | _ :: _ => .error .badText

/-- The command words of one line (R72). -/
def assembleLine (cs : List Char) : Except AsmError (List CommandWord) :=
  match lexLine cs.length cs with
  | some ts => assembleTokens ts
  | none => .error .badText

/-- The lines of a text. -/
def lines : List Char → List (List Char)
  | [] => [[]]
  | c :: cs =>
    match lines cs with
    | [] => [[c]]
    | l :: ls => if c = '\n' then [] :: l :: ls else (c :: l) :: ls

/-- The command words of lines one after the other, or the first error. -/
def assembleLines : List (List Char) → Except AsmError (List CommandWord)
  | [] => .ok []
  | l :: ls =>
    match assembleLine l, assembleLines ls with
    | .ok ws, .ok rest => .ok (ws ++ rest)
    | .error e, _ => .error e
    | .ok _, .error e => .error e

/-- "A command program is a text with one command per line" (R72). -/
def assemble (program : List Char) : Except AsmError (List CommandWord) := assembleLines (lines program)

end Sys2Proof.Machine
end

