-- ==== Sys2Proof/Machine/Handshake.lean ====
section
/-! DEFINITION. The command port at its clock edges (70_reset_and_hazards.md R180, R181, R184 to R186, R190, R191), BELOW
the level of `step`: "the handshake and latency are below this level" (00_scope.md R12). It runs the same `runCommand`;
what it adds is acceptance, one command in flight, a free latency, and the response held on the port. -/

namespace Sys2Proof.Machine.Handshake

/-- The inputs sampled at one rising edge of `clk` (R184). -/
structure Pins where
  rst : Bool
  cmdValid : Bool
  cmdOp : Byte
  cmdArg : Word
  deriving DecidableEq, Repr

/-- The core and its port between two rising edges. -/
structure PortState where
  /-- The core, and the response it drives (R186). -/
  machine : State
  /-- The accepted command in flight, and how many edges pass before the one that completes it (R185). -/
  inflight : Option (CommandWord × Nat)
  /-- The command the host presented at the last edge and the core did not accept (R184). -/
  waiting : Option CommandWord
  deriving DecidableEq, Repr

/-- The command word on the pins, if the host presents one. -/
def Pins.presented (x : Pins) : Option CommandWord :=
  if x.cmdValid then some (commandWord x.cmdOp x.cmdArg) else none

/-- `cmd_ready`: low while `rst` is asserted (R180) and while a command is in flight (R185); log entry 10. -/
def cmdReady (p : PortState) (rst : Bool) : Bool := !rst && p.inflight.isNone

/-- `rsp_valid`: low while `rst` is asserted (R180), else high while a response is held (R186); log entry 10. -/
def rspValid (p : PortState) (rst : Bool) : Bool := !rst && p.machine.rsp.isSome

/-- The host broke its duty to hold a command it presented until it is accepted (R184; 93 U8). -/
def breaksHandshake (p : PortState) (x : Pins) : Bool :=
  match p.waiting with
  | none => false
  | some c => decide (x.presented ≠ some c)

/-- The host's command as the core has still to accept it after an edge that did not accept it. -/
def keepWaiting (x : Pins) (p : PortState) : PortState := { p with waiting := x.presented }

/-- A synchronous reset: the command in flight is abandoned and gives no response (R180, R181). -/
def resetEdge (p : PortState) : PortState :=
  { p with machine := resetMachine p.machine, inflight := none }

/-- Acceptance: the response of the command before is no longer held (R186). The command completes
`1 + extraLatency` edges later (log entry 9). -/
def acceptEdge (c : CommandWord) (p : PortState) : PortState :=
  { machine := { p.machine with rsp := none }
    inflight := some (c, Config.extraLatency c (blocksCompressed c p.machine.core))
    waiting := none }

/-- One rising edge of `clk`. A host that breaks the handshake is refused by name (log entry 11). -/
def edge (p : PortState) (x : Pins) : Host.Outcome PortState Fault Refusal :=
  if breaksHandshake p x then .refused .handshakeViolation
  else if x.rst then .next (keepWaiting x (resetEdge p))
  else
    match p.inflight with
    | some (c, n + 1) => .next (keepWaiting x { p with inflight := some (c, n) })
    | some (c, 0) =>
      match runCommand c p.machine with
      | .next s => .next (keepWaiting x { p with machine := s, inflight := none })
      | .fault f => .fault f
      | .refused r => .refused r
    | none =>
      match x.presented with
      | some c => .next (acceptEdge c p)
      | none => .next (keepWaiting x p)

/-- Rising edges one after the other, up to the first stop. -/
def edges : List Pins → PortState → Host.Outcome PortState Fault Refusal
  | [], p => .next p
  | x :: xs, p =>
    match edge p x with
    | .next q => edges xs q
    | .fault f => .fault f
    | .refused r => .refused r

/-- The transaction that one edge completes, if any: a reset, a reset that abandons the command in flight, or the
completion of the command in flight. -/
def transaction (p : PortState) (x : Pins) : List PortEvent :=
  match x.rst, p.inflight with
  | true, none => [.reset]
  | true, some (c, _) => [.resetDuring c]
  | false, some (c, 0) => [.command c]
  | false, some (_, _ + 1) => []
  | false, none => []

/-- The transactions that a run of edges completes, in order. -/
def transactions : List Pins → PortState → List PortEvent
  | [], _ => []
  | x :: xs, p =>
    transaction p x ++
      match edge p x with
      | .next q => transactions xs q
      | .fault _ => []
      | .refused _ => []

end Sys2Proof.Machine.Handshake
end

