-- ==== Sys2Proof/Machine/Platform.lean ====
section
/-! DEFINITION. Several cores on one platform (60_exceptions.md R175): a list of machines, each with its own state, port
and reset; "they share no state". The constant tables are the only thing they have in common. -/

namespace Sys2Proof.Machine

/-- The cores of a platform; their number is the platform's (00_scope.md R6). -/
abbrev Platform := List State

/-- One core of the platform takes a step; a number that names no core changes nothing. -/
def Platform.stepAt (p : Platform) (n : Nat) : Host.Outcome Platform Fault Refusal :=
  match p[n]? with
  | none => .next p
  | some s =>
    match step s with
    | .next t => .next (p.set n t)
    | .fault f => .fault f
    | .refused r => .refused r

end Sys2Proof.Machine
end

