-- ==== Sys2Proof/Safety.lean ====
section
/-! DEFINITION. What claims about runs are stated in: the invariant of the state (10_state.md R23, R26, R35), which
commands are accepted (45_control.md R146), and what it means that the core holds a message (R35, 41_padder.md R92). -/

namespace Sys2Proof.Machine

/-- The invariant of the core's state: `BUF_LEN` is 0 to 63 (R23); `BUF_LEN = LEN mod 64` in ABSORB, 0 in DONE (R35);
`ERR_CODE` is 0 exactly when `ERR` is 0 (R26). -/
abbrev CoreState.Inv (c : CoreState) : Prop :=
  c.bufLen ≤ 63 ∧
  (c.phase = .absorb → c.bufLen = c.len.toNat % 64) ∧
  (c.phase = .done → c.bufLen = 0) ∧
  (c.err = false ↔ c.errCode = .noError)

/-- The invariant of a machine. -/
abbrev State.Inv (s : State) : Prop := s.core.Inv

/-- Whether a command is accepted in a phase: SEQUENCE and NOT_DONE are its only obstacles (R146, R161). -/
def acceptedIn : Instr → Phase → Bool
  | .nop, _ => true
  | .init, _ => true
  | .push1 _, p => p == .absorb
  | .push2 _ _, p => p == .absorb
  | .push3 _ _ _, p => p == .absorb
  | .push4 _ _ _ _, p => p == .absorb
  | .final, p => p == .absorb
  | .rdword _, p => p == .done
  | .rdbyte _, p => p == .done
  | .rdstat, _ => true
  | .rdlenlo, _ => true
  | .rdlenhi, _ => true

/-- The values of OP that 30_encoding.md R67 lists as illegal. -/
def illegalOp (op : Byte) : Bool :=
  decide (0x02 ≤ op.toNat ∧ op.toNat ≤ 0x1f) || decide (0x24 ≤ op.toNat ∧ op.toNat ≤ 0x2f) ||
    decide (0x31 ≤ op.toNat ∧ op.toNat ≤ 0x3f) || decide (0x42 ≤ op.toNat ∧ op.toNat ≤ 0x4f) ||
    decide (0x53 ≤ op.toNat ∧ op.toNat ≤ 0xff)

/-- The core is absorbing and has taken exactly the message `m` since INIT or reset: `H` has folded the full blocks of
`m` in order, and `BUF` holds the rest (R35, R92). -/
abbrev CoreState.Holds (c : CoreState) (m : List Byte) : Prop :=
  c.phase = .absorb ∧ c.len = BitVec.ofNat 64 m.length ∧ c.buf = partialWindow m ∧
  c.h = (fullBlocks m).foldl compressBlock iv

/-- The core is done and holds the digest state of the message `m` (R92). -/
abbrev CoreState.Digested (c : CoreState) (m : List Byte) : Prop :=
  c.phase = .done ∧ c.buf = [] ∧ c.h = (pad m).foldl compressBlock iv

end Sys2Proof.Machine
end

