-- ==== Sys2Proof/Certificates/Slice0/Obligations.lean ====
section
/-! DEFINITION. The statements for the provers. Each docstring names the rule of spec/ it formalises, or the sections it
rests on. -/

open Sys2Proof Sys2Proof.Machine

/-! ## Encoding -/

/-- The encoder's word decodes to the command, for every command and every operand (30_encoding.md R61, R62, R71). -/
def Obligations.DecodeInvertsEncode : Prop :=
  ∀ i : Instr, decode (encode i) = .ok i

/-- A word decodes to a command exactly when it agrees with the command's encoding on the bits the command uses
(30_encoding.md R61, R62, R66, R71). -/
def Obligations.DecodedWordsAgreeOnUsedBits : Prop :=
  ∀ (c : CommandWord) (i : Instr), decode c = .ok i ↔ c &&& i.usedBits = encode i

/-- Bits of ARG that a command does not use change neither the state nor the response; the encoder writes 0 in them, and
the opcode table masks only OP (30_encoding.md R66). -/
def Obligations.IgnoredArgBitsChangeNothing : Prop :=
  (∀ (c c' : CommandWord) (i : Instr), decode c = .ok i → c &&& i.usedBits = c' &&& i.usedBits →
    ∀ s : State, runCommand c s = runCommand c' s) ∧
  (∀ i : Instr, encode i &&& ~~~i.usedBits = 0) ∧
  (∀ r ∈ opcodeRows, r.mask = 0xff00000000) ∧
  (∀ b0 : Byte, (Instr.push1 b0).usedArg = 0xff000000) ∧
  (∀ k : BitVec 3, (Instr.rdword k).usedArg = 7) ∧
  ∀ i ∈ [Instr.nop, .init, .final, .rdstat, .rdlenlo, .rdlenhi], i.usedArg = 0

/-- The illegal values of OP are the 244 of the list in 30_encoding.md R67; a word with one of them decodes to nothing
and is rejected with ILLEGAL in every phase, whatever ARG holds (60_exceptions.md R162); every other word decodes. -/
def Obligations.UnlistedOpcodesAreIllegal : Prop :=
  ((List.range 256).filter fun n => illegalOp (BitVec.ofNat 8 n)).length = 244 ∧
  ∀ c : CommandWord,
    (illegalOp (c.extractLsb' 32 8) = true →
      decode c = .error (.illegal (c.extractLsb' 32 8)) ∧
      ∀ s : State, runCommand c s = .next
        { s with
          core := { s.core with err := true, errCode := if s.core.err then s.core.errCode else .illegal }
          rsp := some { ok := false, data := 1 } }) ∧
    (illegalOp (c.extractLsb' 32 8) = false → ∃ i, decode c = .ok i)

/-- The decoder's pseudocode, clause by clause, with each operand at its bits of the command word (30_encoding.md R61,
R65, R71). -/
def Obligations.DecoderFollowsTheOpcodeMap : Prop :=
  ∀ c : CommandWord,
    (c.extractLsb' 32 8 = 0x00#8 → decode c = .ok .nop) ∧
    (c.extractLsb' 32 8 = 0x01#8 → decode c = .ok .init) ∧
    (c.extractLsb' 32 8 = 0x20#8 → decode c = .ok (.push1 (c.extractLsb' 24 8))) ∧
    (c.extractLsb' 32 8 = 0x21#8 → decode c = .ok (.push2 (c.extractLsb' 24 8) (c.extractLsb' 16 8))) ∧
    (c.extractLsb' 32 8 = 0x22#8 →
      decode c = .ok (.push3 (c.extractLsb' 24 8) (c.extractLsb' 16 8) (c.extractLsb' 8 8))) ∧
    (c.extractLsb' 32 8 = 0x23#8 →
      decode c = .ok (.push4 (c.extractLsb' 24 8) (c.extractLsb' 16 8) (c.extractLsb' 8 8) (c.extractLsb' 0 8))) ∧
    (c.extractLsb' 32 8 = 0x30#8 → decode c = .ok .final) ∧
    (c.extractLsb' 32 8 = 0x40#8 → decode c = .ok (.rdword (c.extractLsb' 0 3))) ∧
    (c.extractLsb' 32 8 = 0x41#8 → decode c = .ok (.rdbyte (c.extractLsb' 0 5))) ∧
    (c.extractLsb' 32 8 = 0x50#8 → decode c = .ok .rdstat) ∧
    (c.extractLsb' 32 8 = 0x51#8 → decode c = .ok .rdlenlo) ∧
    (c.extractLsb' 32 8 = 0x52#8 → decode c = .ok .rdlenhi) ∧
    (c.extractLsb' 32 8 ∉
        [0x00#8, 0x01#8, 0x20#8, 0x21#8, 0x22#8, 0x23#8, 0x30#8, 0x40#8, 0x41#8, 0x50#8, 0x51#8, 0x52#8] →
      decode c = .error (.illegal (c.extractLsb' 32 8)))

/-- For `OP[7:2] = 0b001000` a word pushes `NB = OP[1:0] + 1` bytes, from 1 to 4, and byte `j` is `ARG[31-8j : 24-8j]`
(30_encoding.md R63, R64). -/
def Obligations.PushCarriesNbBytesInOrder : Prop :=
  ∀ c : CommandWord, c.extractLsb' 34 6 = 0b001000#6 →
    (∃ i, decode c = .ok i ∧ i.pushBytes = pushedBytes c) ∧
    pushedBytes c =
      (List.range ((c.extractLsb' 32 2).toNat + 1)).map (fun j => c.extractLsb' (24 - 8 * j) 8) ∧
    1 ≤ (pushedBytes c).length ∧ (pushedBytes c).length ≤ 4

/-- The twelve words of the spec's decoder vectors (95_test_vectors.md D-DEC). -/
def Obligations.WrittenOutWordsDecode : Prop :=
  decode 0x00ffffffff = .ok .nop ∧ decode 0x01deadbeef = .ok .init ∧
  decode 0x2061ffffff = .ok (.push1 0x61) ∧ decode 0x2361626364 = .ok (.push4 0x61 0x62 0x63 0x64) ∧
  decode 0x2400000000 = .error (.illegal 0x24) ∧ decode 0x2f00000000 = .error (.illegal 0x2f) ∧
  decode 0x3100000000 = .error (.illegal 0x31) ∧
  decode 0x40fffffff8 = .ok (.rdword 0) ∧ decode 0x41ffffffe0 = .ok (.rdbyte 0) ∧
  decode 0x410000003f = .ok (.rdbyte 31) ∧
  decode 0x5300000000 = .error (.illegal 0x53) ∧ decode 0xffffffffff = .error (.illegal 0xff)

/-! ## Word functions -/

/-- `rotr(x, n)` is the "bitwise right rotation over a fixed-width unsigned word" for `n` in 1..31 (00_scope.md R9 and
glossary). -/
def Obligations.RotrRotatesEveryBit : Prop :=
  ∀ (x : Word) (n i : Nat), 1 ≤ n → n ≤ 31 → i < 32 →
    (rotr x n).getLsbD i = x.getLsbD ((i + n) % 32)

/-- `ch` chooses and `maj` votes, bit by bit (43_compressor.md R116, R117). -/
def Obligations.ChChoosesAndMajVotes : Prop :=
  ∀ (x y z : Word),
    ch x y z = (x &&& y) ^^^ (~~~x &&& z) ∧
    maj x y z = (x &&& y) ^^^ (x &&& z) ^^^ (y &&& z) ∧
    ∀ i : Nat,
      (ch x y z).getLsbD i = (if x.getLsbD i then y.getLsbD i else z.getLsbD i) ∧
      (maj x y z).getLsbD i =
        decide (2 ≤ (x.getLsbD i).toNat + (y.getLsbD i).toNat + (z.getLsbD i).toNat)

/-- The two schedule functions and the two round functions of one word, over a rotation that is not the model's own, with
the corner cases of the rules (42_scheduler.md R102, R103, 43_compressor.md R114, R115). -/
def Obligations.GammaAndSigmaAreRotationSums : Prop :=
  (∀ x : Word,
    gamma0 x = x.rotateRight 7 ^^^ x.rotateRight 18 ^^^ (x >>> 3) ∧
    gamma1 x = x.rotateRight 17 ^^^ x.rotateRight 19 ^^^ (x >>> 10) ∧
    sigma0 x = x.rotateRight 2 ^^^ x.rotateRight 13 ^^^ x.rotateRight 22 ∧
    sigma1 x = x.rotateRight 6 ^^^ x.rotateRight 11 ^^^ x.rotateRight 25) ∧
  gamma0 0 = 0 ∧ gamma0 0xffffffff = 0x1fffffff ∧ gamma0 1 = 0x02004000 ∧ gamma0 0x80000000 = 0x11002000 ∧
  gamma1 0 = 0 ∧ gamma1 0xffffffff = 0x003fffff ∧ gamma1 1 = 0x0000a000 ∧ gamma1 0x80000000 = 0x00205000 ∧
  sigma0 0 = 0 ∧ sigma0 0xffffffff = 0xffffffff ∧ sigma0 1 = 0x40080400 ∧
  sigma1 0 = 0 ∧ sigma1 0xffffffff = 0xffffffff ∧ sigma1 1 = 0x04200080

/-! ## Scheduler -/

/-- The schedule has 64 words, and the first sixteen are the block read as big-endian words (42_scheduler.md R100,
20_memory.md R42). -/
def Obligations.ScheduleStartsWithTheBlock : Prop :=
  ∀ blk : List Byte, blk.length = 64 →
    (schedule blk).length = 64 ∧
    ∀ i : Nat, i < 16 →
      (schedule blk)[i]? = some
        ((blk.getD (4 * i) 0).setWidth 32 <<< 24 ||| (blk.getD (4 * i + 1) 0).setWidth 32 <<< 16 |||
          (blk.getD (4 * i + 2) 0).setWidth 32 <<< 8 ||| (blk.getD (4 * i + 3) 0).setWidth 32) ∧
      bytes32 ((schedule blk).getD i 0) = (blk.drop (4 * i)).take 4

/-- Words 16 to 63 of the schedule (42_scheduler.md R101). -/
def Obligations.ScheduleFollowsTheRecurrence : Prop :=
  ∀ (blk : List Byte) (t : Nat), 16 ≤ t → t < 64 →
    (schedule blk).getD t 0 =
      gamma1 ((schedule blk).getD (t - 2) 0) + (schedule blk).getD (t - 7) 0 +
        gamma0 ((schedule blk).getD (t - 15) 0) + (schedule blk).getD (t - 16) 0

/-- A PUSH4 of a word at window offset `4i` makes that word `W[i]`: it appends the word's bytes, and a window that has
them at `4i` has `W[i]` equal to the word (20_memory.md R45). -/
def Obligations.PushedWordIsTheScheduleWord : Prop :=
  ∀ (w : Word) (i : Nat), i < 16 →
    (∀ s : State, s.core.phase = .absorb → s.core.bufLen = 4 * i → i < 15 →
      ∃ t, exec (.push4 (w.extractLsb' 24 8) (w.extractLsb' 16 8) (w.extractLsb' 8 8) (w.extractLsb' 0 8)) s = .next t ∧
        t.core.buf = s.core.buf ++ bytes32 w) ∧
    (∀ s : State, s.core.phase = .absorb → s.core.bufLen = 4 * i → i = 15 →
      ∃ t, exec (.push4 (w.extractLsb' 24 8) (w.extractLsb' 16 8) (w.extractLsb' 8 8) (w.extractLsb' 0 8)) s = .next t ∧
        t.core.h = compress s.core.h (schedule (s.core.buf ++ bytes32 w))) ∧
    ∀ before after : List Byte, before.length = 4 * i →
      (schedule (before ++ bytes32 w ++ after))[i]? = some w

/-- A compressor that computes the schedule on the fly from a 16-word window gives the same result (42_scheduler.md
R104). -/
def Obligations.RollingScheduleGivesTheSameState : Prop :=
  ∀ (h : Vector Word 8) (blk : List Byte), compressRolling h blk = compress h (schedule blk)

/-! ## Compression engine -/

/-- One round is one simultaneous assignment of the working variables (43_compressor.md R111, R112, R113), with the
values the rules give for round 0 of "abc". -/
def Obligations.RoundIsOneSimultaneousAssignment : Prop :=
  (∀ (k w : Word) (v : Working),
    roundStep k w v =
      { a := (v.h + sigma1 v.e + ch v.e v.f v.g + k + w) + (sigma0 v.a + maj v.a v.b v.c)
        b := v.a, c := v.b, d := v.c
        e := v.d + (v.h + sigma1 v.e + ch v.e v.f v.g + k + w)
        f := v.e, g := v.f, h := v.g }) ∧
  roundT1 0x428a2f98 0x61626380 (Working.ofState iv) = 0x54da50e8 ∧
  roundT2 (Working.ofState iv) = 0x08909ae5 ∧
  (roundStep 0x428a2f98 0x61626380 (Working.ofState iv)).a = 0x5d6aebcd ∧
  (roundStep 0x428a2f98 0x61626380 (Working.ofState iv)).e = 0xfa2a4622

/-- `Compress` runs rounds 0 to 63 in order on the working variables and then adds them to the state, word by word
(43_compressor.md R110, R120). -/
def Obligations.CompressRunsSixtyFourRounds : Prop :=
  ∀ (h : Vector Word 8) (w : List Word), w.length = 64 →
    ∃ v : Nat → Working,
      v 0 = { a := h[0], b := h[1], c := h[2], d := h[3], e := h[4], f := h[5], g := h[6], h := h[7] } ∧
      (∀ t : Nat, t < 64 → v (t + 1) = roundStep (kTable.getD t 0) (w.getD t 0) (v t)) ∧
      (compress h w)[0] = h[0] + (v 64).a ∧ (compress h w)[1] = h[1] + (v 64).b ∧
      (compress h w)[2] = h[2] + (v 64).c ∧ (compress h w)[3] = h[3] + (v 64).d ∧
      (compress h w)[4] = h[4] + (v 64).e ∧ (compress h w)[5] = h[5] + (v 64).f ∧
      (compress h w)[6] = h[6] + (v 64).g ∧ (compress h w)[7] = h[7] + (v 64).h

/-- `K[t]` is the first 32 bits of the fractional part of the cube root of the `t`-th prime (43_compressor.md R118):
with `r = icbrt(p_t * 2^96)`, `K[t] = r mod 2^32`. -/
def Obligations.RoundConstantsAreCubeRootFractions : Prop :=
  kTable.length = 64 ∧ kPrimes.length = 64 ∧ kPrimes.Pairwise (· < ·) ∧
  (∀ p : Nat, p ∈ kPrimes ↔ p.Prime ∧ p ≤ 311) ∧
  ∀ t : Nat, t < 64 → ∃ r : Nat,
    r ^ 3 ≤ kPrimes.getD t 0 * 2 ^ 96 ∧ kPrimes.getD t 0 * 2 ^ 96 < (r + 1) ^ 3 ∧
    (kTable.getD t 0).toNat = r % 2 ^ 32

/-- `IV[i]` is the first 32 bits of the fractional part of the square root of the `i`-th prime. The spec supplies the
numbers and this derivation from general knowledge (10_state.md R31, 93 G1, G2; log entry 7). -/
def Obligations.InitialHashIsSquareRootFractions : Prop :=
  ∀ i : Nat, (hi : i < 8) → ∃ r : Nat,
    r ^ 2 ≤ kPrimes.getD i 0 * 2 ^ 64 ∧ kPrimes.getD i 0 * 2 ^ 64 < (r + 1) ^ 2 ∧ iv[i].toNat = r % 2 ^ 32

/-- A command changes `H` only by INIT, which loads `IV`, or by compressing whole 64-byte blocks: as many as
`blocksCompressed` says, at most one in a PUSH and one or two in an accepted FINAL, none in any other command
(10_state.md R21, 43_compressor.md R121, R122, 70_reset_and_hazards.md R190). -/
def Obligations.OnlyWholeBlocksAndInitWriteH : Prop :=
  ∀ (c : CommandWord) (s : State), s.Inv → ∃ t, runCommand c s = .next t ∧
    (decode c = .ok .init → t.core.h = iv) ∧
    (decode c ≠ .ok .init → ∃ blks : List (List Byte),
      (∀ b ∈ blks, b.length = 64) ∧ blks.length = blocksCompressed c s.core ∧
      t.core.h = blks.foldl compressBlock s.core.h) ∧
    (pushedBytes c ≠ [] → blocksCompressed c s.core ≤ 1) ∧
    (decode c = .ok .final → s.core.phase = .absorb →
      1 ≤ blocksCompressed c s.core ∧ blocksCompressed c s.core ≤ 2) ∧
    (decode c ≠ .ok .final → pushedBytes c = [] → blocksCompressed c s.core = 0)

/-! ## Padder -/

/-- The final block or blocks, for every length of the partial window (41_padder.md R82). -/
def Obligations.PadTailLayout : Prop :=
  ∀ (t : List Byte) (l : BitVec 64),
    (t.length ≤ 55 → padTail t l = [t ++ [0x80] ++ zeros (55 - t.length) ++ be64 l]) ∧
    (56 ≤ t.length → t.length ≤ 63 →
      padTail t l = [t ++ [0x80] ++ zeros (63 - t.length), zeros 56 ++ be64 l]) ∧
    (t.length ≤ 63 → ∀ b ∈ padTail t l, b.length = 64)

/-- The bit length stands as 8 big-endian bytes at offset 56 of the final block (20_memory.md R43). -/
def Obligations.LengthFieldIsBigEndianAtOffset56 : Prop :=
  ∀ (t : List Byte) (l : BitVec 64), t.length ≤ 63 →
    ∃ b : List Byte, (padTail t l).getLast? = some b ∧ b.drop 56 = be64 l ∧
      b[56]? = some (l.extractLsb' 56 8) ∧ b[63]? = some (l.extractLsb' 0 8) ∧
      (b.drop 56).foldl (fun n x => n * 256 + x.toNat) 0 = l.toNat

/-- The padded message is `input || 0x80 || zero-padding || 64-bit-big-endian(n*8)` in 64-byte blocks, with the fewest
zero bytes that make it so, and every full window is emitted unchanged (41_padder.md R80). -/
def Obligations.PaddedMessageMeetsTheContract : Prop :=
  ∀ m : List Byte,
    (∀ b ∈ pad m, b.length = 64) ∧
    (∀ q : Nat, q < m.length / 64 → (pad m)[q]? = some ((m.drop (64 * q)).take 64)) ∧
    ∃ z : Nat,
      (pad m).flatten = m ++ [0x80] ++ zeros z ++ be64 (BitVec.ofNat 64 (m.length * 8)) ∧
      ∀ z' : Nat, (m.length + 1 + z' + 8) % 64 = 0 → z ≤ z'

/-- Block count, zero bytes and bounds of the padded length (41_padder.md R89). -/
def Obligations.PaddedBlockCount : Prop :=
  ∀ m : List Byte,
    (m.length % 64 ≤ 55 → (pad m).length = m.length / 64 + 1) ∧
    (56 ≤ m.length % 64 → (pad m).length = m.length / 64 + 2) ∧
    (pad m).length = (m.length + 8) / 64 + 1 ∧
    (∃ z : Nat, z ≤ 63 ∧ (z : Int) = (55 - (m.length % 64 : Nat)) % 64 ∧
      (pad m).flatten.length = m.length + 1 + z + 8) ∧
    m.length + 9 ≤ 64 * (pad m).length ∧ 64 * (pad m).length ≤ m.length + 72

/-- The length field is the bit length of the message modulo 2^64, computed from the byte counter as a shift
(41_padder.md R81, 10_state.md R25). -/
def Obligations.LengthFieldIsTheBitLength : Prop :=
  ∀ (n : Nat) (c : CoreState), c.len = BitVec.ofNat 64 n →
    lengthField c = bitLen n ∧ lengthField c = c.len <<< 3 ∧ (lengthField c).toNat = n * 8 % 2 ^ 64

/-- PUSH1 to PUSH4, with every value of the four bytes of ARG: the encoding and its ignored bytes, the rejection in phase
DONE, and in phase ABSORB the whole next state at every window offset (41_padder.md R84 to R87, 20_memory.md R48). When the
pushed bytes fill the window, it is compressed and the rest of them start the next one. -/
def Obligations.PushAppendsItsBytes : Prop :=
  ∀ (b0 b1 b2 b3 op : Byte) (i : Instr) (bs : List Byte),
    (op, i, bs) ∈ [((0x20 : Byte), Instr.push1 b0, [b0]), (0x21, .push2 b0 b1, [b0, b1]),
      (0x22, .push3 b0 b1 b2, [b0, b1, b2]), (0x23, .push4 b0 b1 b2 b3, [b0, b1, b2, b3])] →
    decode (commandWord op (argOfBytes b0 b1 b2 b3)) = .ok i ∧
    ∀ s : State,
      (s.core.phase = .done → exec i s = .next
        { s with
          core := { s.core with err := true, errCode := if s.core.err then s.core.errCode else .sequence }
          rsp := some { ok := false, data := 2 } }) ∧
      (s.core.phase = .absorb → s.core.bufLen ≤ 63 → exec i s = .next
        { s with
          core :=
            if s.core.bufLen + bs.length < 64 then
              { s.core with buf := s.core.buf ++ bs, len := s.core.len + BitVec.ofNat 64 bs.length }
            else
              { s.core with
                h := compress s.core.h (schedule ((s.core.buf ++ bs).take 64))
                buf := (s.core.buf ++ bs).drop 64
                len := s.core.len + BitVec.ofNat 64 bs.length }
          rsp := some { ok := true, data := 0 } })

/-- A PUSH takes the byte counter past 2^64 - 1 modulo 2^64, the wrap is no error, and the embedded bit length is defined
modulo 2^64 (60_exceptions.md R178). -/
def Obligations.CounterWrapIsNoError : Prop :=
  ∀ (i : Instr) (s : State), i.pushBytes ≠ [] → s.core.phase = .absorb →
    ∃ t, exec i s = .next t ∧ t.core.len.toNat = (s.core.len.toNat + i.pushBytes.length) % 2 ^ 64 ∧
      (lengthField t.core).toNat = t.core.len.toNat * 8 % 2 ^ 64 ∧
      t.core.err = s.core.err ∧ t.core.errCode = s.core.errCode ∧ t.rsp = some { ok := true, data := 0 }

/-- Mixed-width views agree: one RDWORD is four RDBYTEs packed big-endian, and one PUSH4 leaves the same state as four
PUSH1 of its bytes, in every state (20_memory.md R47). -/
def Obligations.MixedWidthViewsAgree : Prop :=
  (∀ (s : State) (k : BitVec 3), s.core.phase = .done → ∃ d0 d1 d2 d3 : Word,
    exec (.rdbyte (BitVec.ofNat 5 (4 * k.toNat))) s = .next { s with rsp := some ⟨true, d0⟩ } ∧
    exec (.rdbyte (BitVec.ofNat 5 (4 * k.toNat + 1))) s = .next { s with rsp := some ⟨true, d1⟩ } ∧
    exec (.rdbyte (BitVec.ofNat 5 (4 * k.toNat + 2))) s = .next { s with rsp := some ⟨true, d2⟩ } ∧
    exec (.rdbyte (BitVec.ofNat 5 (4 * k.toNat + 3))) s = .next { s with rsp := some ⟨true, d3⟩ } ∧
    exec (.rdword k) s =
      .next { s with rsp := some ⟨true, d0 <<< 24 ||| d1 <<< 16 ||| d2 <<< 8 ||| d3⟩ }) ∧
  ∀ (s : State) (w : Word), ∃ (t : State) (rs rs' : List Response),
    runCommands [commandWord 0x23 w] s = .next (t, rs) ∧
    runCommands [commandWord 0x20 w, commandWord 0x20 (w <<< 8), commandWord 0x20 (w <<< 16),
      commandWord 0x20 (w <<< 24)] s = .next (t, rs')

/-- However the bytes of a message are split across PUSH1 to PUSH4, the core ends in the same state (41_padder.md R91). -/
def Obligations.SplitOfPushesDoesNotMatter : Prop :=
  ∀ (s : State) (ws ws' : List CommandWord), s.core.phase = .absorb →
    (∀ w ∈ ws, pushedBytes w ≠ []) → (∀ w ∈ ws', pushedBytes w ≠ []) →
    ws.flatMap pushedBytes = ws'.flatMap pushedBytes →
    ∃ (t t' : State) (rs rs' : List Response),
      runCommands ws s = .next (t, rs) ∧ runCommands ws' s = .next (t', rs') ∧ t.core = t'.core

/-- FINAL: any ARG, the rejection in phase DONE, and in phase ABSORB the whole next state; one block if `BUF_LEN <= 55`,
two if `>= 56` (41_padder.md R88). -/
def Obligations.FinalPadsAndFinishes : Prop :=
  (∀ arg : Word, decode (commandWord 0x30 arg) = .ok .final) ∧
  ∀ s : State,
    (s.core.phase = .done → exec .final s = .next
      { s with
        core := { s.core with err := true, errCode := if s.core.err then s.core.errCode else .sequence }
        rsp := some { ok := false, data := 2 } }) ∧
    (s.core.phase = .absorb → exec .final s = .next
      { s with
        core :=
          { s.core with
            h := (padTail s.core.buf (BitVec.ofNat 64 (s.core.len.toNat * 8))).foldl
              (fun h blk => compress h (schedule blk)) s.core.h
            buf := []
            phase := .done }
        rsp := some { ok := true, data := 0 } }) ∧
    (s.core.bufLen ≤ 55 → (padTail s.core.buf (BitVec.ofNat 64 (s.core.len.toNat * 8))).length = 1) ∧
    (56 ≤ s.core.bufLen → (padTail s.core.buf (BitVec.ofNat 64 (s.core.len.toNat * 8))).length = 2)

/-- What the core holds of its message: in ABSORB, `BUF_LEN = LEN mod 64`, `BUF` holds the last `BUF_LEN` message bytes in
order and `H` has folded the full blocks; in DONE `BUF_LEN = 0`. Reset and INIT establish it, PUSH and FINAL keep it
(10_state.md R35). No other command word loses the message: NOP, the reads and every rejected word keep what is held in
ABSORB, and in DONE every word but INIT, a rejected PUSH or FINAL among them, keeps the digest. -/
def Obligations.CoreHoldsItsMessage : Prop :=
  State.reset.core.Holds [] ∧
  (∀ s : State, ∃ t, exec .init s = .next t ∧ t.core.Holds []) ∧
  (∀ (s : State) (m : List Byte) (i : Instr), s.core.Holds m → i.pushBytes ≠ [] →
    ∃ t, exec i s = .next t ∧ t.core.Holds (m ++ i.pushBytes)) ∧
  (∀ (s : State) (m : List Byte), s.core.Holds m → ∃ t, exec .final s = .next t ∧ t.core.Digested m) ∧
  (∀ (s : State) (m : List Byte) (w : CommandWord), s.core.Holds m → decode w ≠ .ok .init → decode w ≠ .ok .final →
    ∃ t, runCommand w s = .next t ∧ t.core.Holds (m ++ pushedBytes w)) ∧
  (∀ (s : State) (m : List Byte) (w : CommandWord), s.core.Digested m → decode w ≠ .ok .init →
    ∃ t, runCommand w s = .next t ∧ t.core.Digested m) ∧
  (∀ (c : CoreState) (m : List Byte), c.Holds m →
    c.bufLen = c.len.toNat % 64 ∧ c.buf = m.drop (m.length - c.bufLen)) ∧
  ∀ (c : CoreState) (m : List Byte), c.Digested m → c.bufLen = 0

/-- The end-to-end law: from the reset state or the state after INIT, PUSH commands of the bytes of `m`, however split,
then FINAL, end in DONE with `H = fold(ProcessBlock, IV, Pad(m))`; no command is rejected and `ERR` is unchanged
(41_padder.md R92). -/
def Obligations.PushesThenFinalHashTheMessage : Prop :=
  ∀ (s : State) (ws : List CommandWord) (fin : CommandWord) (m : List Byte),
    s.core.phase = .absorb → s.core.bufLen = 0 → s.core.len = 0 → s.core.h = iv →
    (∀ w ∈ ws, pushedBytes w ≠ []) → ws.flatMap pushedBytes = m → decode fin = .ok .final →
    ∃ (t : State) (rs : List Response),
      runCommands (ws ++ [fin]) s = .next (t, rs) ∧
      t.core.phase = .done ∧
      t.core.h = (pad m).foldl (fun h blk => compress h (schedule blk)) iv ∧
      serialize t.core.h = hashBytes m ∧
      rs.length = ws.length + 1 ∧ (∀ r ∈ rs, r.ok = true) ∧
      t.core.err = s.core.err ∧ t.core.errCode = s.core.errCode

/-- The command sequence INIT, PUSH of the message bytes, FINAL, RDWORD 0 to 7 makes `hash` available from EVERY state:
all responses are accepted, and the last eight, concatenated big-endian, are the digest (00_scope.md R3, 30_encoding.md
R73). -/
def Obligations.CommandPortComputesHash : Prop :=
  ∀ (s : State) (ws : List CommandWord) (m : List Byte),
    (∀ w ∈ ws, pushedBytes w ≠ []) → ws.flatMap pushedBytes = m →
    ∃ (t : State) (rs : List Response),
      runCommands ([encode .init] ++ ws ++ [encode .final] ++ readDigestSequence.map encode) s = .next (t, rs) ∧
      rs.length = ws.length + 10 ∧ (∀ r ∈ rs, r.ok = true) ∧
      (rs.drop (ws.length + 2)).flatMap (fun r => bytes32 r.data) = hashBytes m ∧
      (hashBytes m).length = 32

/-! ## Serializer -/

/-- The digest is 32 bytes, each word of `H` big-endian (44_serializer.md R130, 20_memory.md R44). -/
def Obligations.DigestIsThirtyTwoBigEndianBytes : Prop :=
  ∀ h : Vector Word 8,
    (serialize h).length = 32 ∧
    ∀ i : Nat, (hi : i < 32) →
      (serialize h)[i]? = some ((h[i / 4]'(by omega)).extractLsb' (24 - 8 * (i % 4)) 8)

/-- RDWORD: any ARG, NOT_DONE in phase ABSORB, and in phase DONE the word `H[KIDX]`, which is `BE32(Serialize(H), 4*KIDX)`,
with no change of state (44_serializer.md R131). -/
def Obligations.RdwordReadsDigestWord : Prop :=
  (∀ arg : Word, decode (commandWord 0x40 arg) = .ok (.rdword (arg.extractLsb' 0 3))) ∧
  ∀ (k : BitVec 3) (s : State),
    (s.core.phase = .absorb → exec (.rdword k) s = .next
      { s with
        core := { s.core with err := true, errCode := if s.core.err then s.core.errCode else .notDone }
        rsp := some { ok := false, data := 3 } }) ∧
    (s.core.phase = .done →
      exec (.rdword k) s = .next { s with rsp := some { ok := true, data := s.core.h[k.toNat]'(k.isLt) } } ∧
      s.core.h[k.toNat]'(k.isLt) = be32 (serialize s.core.h) (4 * k.toNat))

/-- RDBYTE: any ARG, NOT_DONE in phase ABSORB, and in phase DONE digest byte `BIDX` zero-extended, with no change of state
(44_serializer.md R132). -/
def Obligations.RdbyteReadsDigestByte : Prop :=
  (∀ arg : Word, decode (commandWord 0x41 arg) = .ok (.rdbyte (arg.extractLsb' 0 5))) ∧
  ∀ (i : BitVec 5) (s : State),
    (s.core.phase = .absorb → exec (.rdbyte i) s = .next
      { s with
        core := { s.core with err := true, errCode := if s.core.err then s.core.errCode else .notDone }
        rsp := some { ok := false, data := 3 } }) ∧
    (s.core.phase = .done → ∃ b : Byte, (serialize s.core.h)[i.toNat]? = some b ∧
      exec (.rdbyte i) s = .next { s with rsp := some { ok := true, data := b.setWidth 32 } })

/-- Only the final digest is visible: while a message is absorbed, and for every command but RDWORD and RDBYTE in any
phase, two cores that differ in `H` alone give the same response and stay equal but for `H`; and RDWORD and RDBYTE are
rejected in phase ABSORB (44_serializer.md R133). -/
def Obligations.ChainingValueStaysHidden : Prop :=
  (∀ (c : CommandWord) (s : State) (h' : Vector Word 8),
    (s.core.phase = .absorb ∨ ((∀ k, decode c ≠ .ok (.rdword k)) ∧ ∀ i, decode c ≠ .ok (.rdbyte i))) →
    ∃ t t' : State,
      runCommand c s = .next t ∧ runCommand c { s with core := { s.core with h := h' } } = .next t' ∧
      t.rsp = t'.rsp ∧ t.inputs = t'.inputs ∧ { t.core with h := h' } = { t'.core with h := h' }) ∧
  ∀ (i : Instr) (s : State), ((∃ k, i = .rdword k) ∨ ∃ n, i = .rdbyte n) → s.core.phase = .absorb →
    ∃ t, exec i s = .next t ∧ t.rsp = some { ok := false, data := 3 }

/-! ## Control and status -/

/-- NOP, with any ARG, answers `(1, 0)` in every phase and leaves the state unchanged (45_control.md R140). -/
def Obligations.NopOnlyAnswers : Prop :=
  (∀ arg : Word, decode (commandWord 0x00 arg) = .ok .nop) ∧
  ∀ s : State, exec .nop s = .next { s with rsp := some { ok := true, data := 0 } }

/-- INIT, with any ARG, starts a new message in every phase; STATUS becomes 0, and from the reset state it changes nothing
in the core (45_control.md R141). -/
def Obligations.InitStartsANewMessage : Prop :=
  (∀ arg : Word, decode (commandWord 0x01 arg) = .ok .init) ∧
  ∀ s : State, ∃ c : CoreState,
    exec .init s = .next { s with core := c, rsp := some { ok := true, data := 0 } } ∧
    c.h = iv ∧ c.bufLen = 0 ∧ c.len = 0 ∧ c.phase = .absorb ∧ c.err = false ∧ c.errCode = .noError ∧
    statusWord c = 0 ∧ c = State.reset.core

/-- RDSTAT, with any ARG, answers STATUS in every phase and changes no state; every field of STATUS stands at its bits
(45_control.md R142, 10_state.md R32). -/
def Obligations.RdstatReadsEveryStatusField : Prop :=
  (∀ arg : Word, decode (commandWord 0x50 arg) = .ok .rdstat) ∧
  ∀ s : State, s.core.bufLen ≤ 63 → ∃ st : Word,
    exec .rdstat s = .next { s with rsp := some { ok := true, data := st } } ∧
    st.getLsbD 0 = decide (s.core.phase = .done) ∧
    st.getLsbD 1 = s.core.err ∧
    st.extractLsb' 2 2 = (match s.core.errCode with
      | .noError => 0#2
      | .illegal => 1#2
      | .sequence => 2#2
      | .notDone => 3#2) ∧
    st.extractLsb' 4 4 = 0#4 ∧
    (st.extractLsb' 8 6).toNat = s.core.bufLen ∧
    st.extractLsb' 14 18 = 0#18

/-- RDLENLO and RDLENHI, with any ARG, answer the two halves of `LEN` in every phase and change no state (45_control.md
R143, R144). -/
def Obligations.RdlenReadsBothHalves : Prop :=
  (∀ arg : Word, decode (commandWord 0x51 arg) = .ok .rdlenlo ∧ decode (commandWord 0x52 arg) = .ok .rdlenhi) ∧
  ∀ s : State, ∃ lo hi : Word,
    exec .rdlenlo s = .next { s with rsp := some { ok := true, data := lo } } ∧
    exec .rdlenhi s = .next { s with rsp := some { ok := true, data := hi } } ∧
    lo = s.core.len.extractLsb' 0 32 ∧ hi = s.core.len.extractLsb' 32 32 ∧
    hi.toNat * 2 ^ 32 + lo.toNat = s.core.len.toNat

/-- A read that is accepted changes no state and can be repeated with the same answer; one that is rejected changes
nothing but `ERR` and `ERR_CODE` (20_memory.md R51). -/
def Obligations.ReadsHaveNoSideEffect : Prop :=
  ∀ (i : Instr) (s : State),
    ((∃ k, i = .rdword k) ∨ (∃ n, i = .rdbyte n) ∨ i = .rdstat ∨ i = .rdlenlo ∨ i = .rdlenhi) →
    ∃ (t : State) (r : Response), exec i s = .next t ∧ t.rsp = some r ∧ t.inputs = s.inputs ∧
      (r.ok = true → t.core = s.core ∧ exec i t = .next t) ∧
      (r.ok = false → t.core = { s.core with err := t.core.err, errCode := t.core.errCode })

/-! ## Dispatch, errors, state -/

/-- Every command word gets exactly one response, accepted or rejected by OP and `PHASE` alone, never by `ERR`; ILLEGAL
comes first, then SEQUENCE in phase DONE and NOT_DONE in phase ABSORB, each for its own commands (45_control.md R146,
60_exceptions.md R162 to R165, 30_encoding.md R70). -/
def Obligations.AcceptanceDependsOnOpcodeAndPhase : Prop :=
  ∀ (c : CommandWord) (s : State), ∃ (t : State) (r : Response),
    runCommand c s = .next t ∧ t.rsp = some r ∧ t.inputs = s.inputs ∧
    match decode c with
    | .error _ => r = { ok := false, data := 1 }
    | .ok i =>
      if acceptedIn i s.core.phase then
        r.ok = true ∧ ((i ∈ [Instr.nop, .init, .final] ∨ i.pushBytes ≠ []) → r.data = 0)
      else r = { ok := false, data := if s.core.phase = .done then 2 else 3 }

/-- A rejection is precise: none of the command's effects takes place, `ERR` is set, `ERR_CODE` takes the code only if
`ERR` was 0, and the response carries the command's own code (60_exceptions.md R166, R167). -/
def Obligations.RejectionChangesOnlyTheErrorBits : Prop :=
  ∀ (c : CommandWord) (s t : State) (d : Word), runCommand c s = .next t → t.rsp = some { ok := false, data := d } →
    ∃ e : ErrCode, e ≠ .noError ∧ d = e.bits.setWidth 32 ∧
      t = { s with
            core := { s.core with err := true, errCode := if s.core.err then s.core.errCode else e }
            rsp := some { ok := false, data := d } }

/-- `ERR` and `ERR_CODE`, once set, are cleared by INIT and by reset and by nothing else, `ERR_CODE` keeps the first code,
and no command's acceptance depends on the error bits (60_exceptions.md R168, 10_state.md R26). -/
def Obligations.ErrorsStayUntilInitOrReset : Prop :=
  (∀ (e : PortEvent) (s : State), s.core.err = true → ∃ t, applyEvent e s = .next t ∧
    (t.core.err = false ↔
      e = .reset ∨ (∃ c, e = .resetDuring c) ∨ ∃ c, e = .command c ∧ decode c = .ok .init) ∧
    (t.core.err = false → t.core.errCode = .noError) ∧
    (t.core.err = true → t.core.errCode = s.core.errCode)) ∧
  ∀ (c : CommandWord) (s : State) (b : Bool) (k : ErrCode), ∃ t t' : State,
    runCommand c s = .next t ∧
    runCommand c { s with core := { s.core with err := b, errCode := k } } = .next t' ∧
    t.rsp.map (·.ok) = t'.rsp.map (·.ok)

/-- `PHASE`: reset and INIT set ABSORB, FINAL in ABSORB sets DONE, nothing else writes it; ABSORB is encoded 0 and DONE 1
(10_state.md R24). -/
def Obligations.PhaseHasThreeWriters : Prop :=
  Phase.absorb.bit = 0#1 ∧ Phase.done.bit = 1#1 ∧
  ∀ (e : PortEvent) (s : State), ∃ t, applyEvent e s = .next t ∧
    t.core.phase = match e with
      | .reset => .absorb
      | .resetDuring _ => .absorb
      | .command c =>
        match decode c with
        | .ok .init => .absorb
        | .ok .final => .done
        | _ => s.core.phase

/-- `LEN`: each byte pushed adds 1 modulo 2^64, INIT and reset set it to 0, nothing else changes it, FINAL included; the
embedded bit length is `(LEN * 8) mod 2^64` (10_state.md R25). -/
def Obligations.LenCountsPushedBytes : Prop :=
  (∀ (e : PortEvent) (s : State), ∃ t, applyEvent e s = .next t ∧
    t.core.len = match e with
      | .reset => 0
      | .resetDuring _ => 0
      | .command c =>
        match decode c with
        | .ok .init => 0
        | _ =>
          match s.core.phase with
          | .absorb => s.core.len + BitVec.ofNat 64 (pushedBytes c).length
          | .done => s.core.len) ∧
  ∀ c : CoreState, (lengthField c).toNat = c.len.toNat * 8 % 2 ^ 64

/-- `Step(s, c) = (s', r)` is one deterministic, total function of the core's state and the command word: what was on the
port before, and what the host presents later, play no part (00_scope.md R12). -/
def Obligations.StepIsAFunctionOfCoreAndCommand : Prop :=
  ∀ (core : CoreState) (c : CommandWord), ∃ (core' : CoreState) (r : Response),
    ∀ (rsp : Option Response) (inputs : List PortEvent),
      runCommand c { core := core, rsp := rsp, inputs := inputs } =
        .next { core := core', rsp := some r, inputs := inputs }

/-- A step takes the next event at the port and runs it: the decoded command, the ILLEGAL rejection, or a reset; with
nothing presented the machine keeps its state (45_control.md R146, 60_exceptions.md R177; log entries 1, 2). -/
def Obligations.StepRunsThePresentedEvent : Prop :=
  ∀ s : State,
    (s.inputs = [] → step s = .next s) ∧
    (∀ c i es, s.inputs = .command c :: es → decode c = .ok i → step s = exec i { s with inputs := es }) ∧
    (∀ c d es, s.inputs = .command c :: es → decode c = .error d →
      step s = .next
        { core := { s.core with err := true, errCode := if s.core.err then s.core.errCode else .illegal }
          rsp := some { ok := false, data := 1 }
          inputs := es }) ∧
    (∀ es, s.inputs = .reset :: es → step s = .next { core := State.reset.core, rsp := none, inputs := es }) ∧
    (∀ c es, s.inputs = .resetDuring c :: es →
      step s = .next { core := State.reset.core, rsp := none, inputs := es }) ∧
    ∀ w, step (s.withFetchWord 40 w) = runCommand (BitVec.ofNat 40 w) s

/-- The steps over presented commands are the left-to-right composition of `Step`, with one response per command in
command order (20_memory.md R53). -/
def Obligations.QueueRunsLeftToRight : Prop :=
  ∀ (cs : List CommandWord) (s : State) (es : List PortEvent), s.inputs = cs.map .command ++ es →
    ∃ (t : State) (rs : List Response),
      runCommands cs s = .next (t, rs) ∧ rs.length = cs.length ∧
      (cs ≠ [] → t.rsp = rs.getLast?) ∧
      Sys2Proof.core.run cs.length s = .next { t with inputs := es }

/-- Reset takes any state to the reset state; during a command it abandons the command, which has no effect and no
response (70_reset_and_hazards.md R180, R181). That what the host has still to present is kept is the model's choice (log
entry 1). -/
def Obligations.ResetAbandonsEverything : Prop :=
  ∀ s : State,
    applyEvent .reset s = .next { core := State.reset.core, rsp := none, inputs := s.inputs } ∧
    ∀ c : CommandWord,
      applyEvent (.resetDuring c) s = .next { core := State.reset.core, rsp := none, inputs := s.inputs }

/-- The reset values the spec gives, the equality with the state after INIT, and the invariant at reset (10_state.md R33,
70_reset_and_hazards.md R182). The clause that nothing is presented at reset is the model's choice (log entry 1). -/
def Obligations.ResetStateMeetsTheInvariant : Prop :=
  State.reset.core.h = iv ∧ State.reset.core.bufLen = 0 ∧ State.reset.core.phase = .absorb ∧
  State.reset.core.len = 0 ∧ State.reset.core.err = false ∧ State.reset.core.errCode = .noError ∧
  statusWord State.reset.core = 0 ∧ State.reset.rsp = none ∧ State.reset.inputs = [] ∧
  (∀ s t : State, exec .init s = .next t → t.core = State.reset.core) ∧
  State.reset.Inv

/-- Every step keeps the invariant: `BUF_LEN` is 0 to 63 and equals `LEN mod 64` in ABSORB and 0 in DONE; `ERR_CODE` is 0
exactly when `ERR` is 0 (10_state.md R23, R26, R35). -/
def Obligations.StepKeepsTheInvariant : Prop :=
  ∀ s t : State, s.Inv → step s = .next t → t.Inv

/-- No step stops, from any state: every command completes, accepted or rejected (60_exceptions.md R160, R169,
70_reset_and_hazards.md R191, 93: "No case is `stuck`"). -/
def Obligations.StepNeverStops : Prop :=
  ∀ s : State, ∃ t, step s = .next t

/-! ## The command port at its clock edges -/

/-- Every run of clock edges is a run of whole transactions: the core is where the completed transactions take it, and
whenever no command is in flight the response on the port is theirs (00_scope.md R12, 70_reset_and_hazards.md R185,
R187). -/
def Obligations.ClockedRunsAreTransactionRuns : Prop :=
  ∀ (xs : List Handshake.Pins) (p q : Handshake.PortState), Handshake.edges xs p = .next q →
    ∃ t, applyEvents (Handshake.transactions xs p) p.machine = .next t ∧
      t.core = q.machine.core ∧ t.inputs = q.machine.inputs ∧
      (q.inflight = none → t.rsp = q.machine.rsp)

/-- An accepted command completes in finitely many cycles unless `rst` is asserted first, with `cmd_ready` low and the
core unchanged until then, and its response is then presented (70_reset_and_hazards.md R185, R191). How many cycles is a
free value (log entry 9); that `cmd_ready` is high as soon as no command is in flight is the model's choice (log entry
10). -/
def Obligations.AcceptedCommandCompletes : Prop :=
  ∀ (p q : Handshake.PortState) (c : CommandWord) (n : Nat) (xs : List Handshake.Pins),
    p.inflight = some (c, n) → xs.length = n + 1 → (∀ x ∈ xs, x.rst = false) → Handshake.edges xs p = .next q →
    (∀ k : Nat, k ≤ n → ∃ r, Handshake.edges (xs.take k) p = .next r ∧ r.machine = p.machine ∧
      Handshake.cmdReady r false = false) ∧
    runCommand c p.machine = .next q.machine ∧ q.inflight = none ∧
    Handshake.cmdReady q false = true ∧ Handshake.rspValid q false = true

/-- The port at one edge: a command is accepted exactly when `cmd_valid` and `cmd_ready` are both 1; a command in flight
stays in flight, the core unchanged, until the edge that completes it, and no other command takes its place; the response
is held until the next acceptance or reset; `rst` gives the reset state with `cmd_ready` and `rsp_valid` low; only a host
that changes or drops a command it presented is refused (70_reset_and_hazards.md R180, R181, R184 to R186, 93 U8). The
cycle in which `cmd_ready` and `rsp_valid` follow `rst`, and the refusal, are log entries 10 and 11. -/
def Obligations.PortFollowsTheHandshake : Prop :=
  ∀ (p : Handshake.PortState) (x : Handshake.Pins),
    (Handshake.breaksHandshake p x = true → Handshake.edge p x = .refused .handshakeViolation) ∧
    (Handshake.breaksHandshake p x = false → ∃ q, Handshake.edge p x = .next q ∧
      (x.rst = true →
        q.machine.core = State.reset.core ∧ q.machine.rsp = none ∧ q.inflight = none ∧
        Handshake.cmdReady p true = false ∧ Handshake.rspValid p true = false) ∧
      (x.cmdValid = true → Handshake.cmdReady p x.rst = true →
        (∃ n, q.inflight = some (commandWord x.cmdOp x.cmdArg, n)) ∧
        q.machine.core = p.machine.core ∧ q.machine.rsp = none ∧ q.waiting = none) ∧
      (x.cmdValid = true → Handshake.cmdReady p x.rst = false →
        q.waiting = some (commandWord x.cmdOp x.cmdArg)) ∧
      (x.rst = false → ∀ c n, p.inflight = some (c, n + 1) → q.inflight = some (c, n) ∧ q.machine = p.machine) ∧
      (x.rst = false → ∀ c, p.inflight = some (c, 0) → q.inflight = none ∧ runCommand c p.machine = .next q.machine) ∧
      (x.cmdValid = false → Handshake.cmdReady p x.rst = true → q.machine = p.machine ∧ q.inflight = none))

/-! ## Platform and assembler -/

/-- A step of one core of a platform is that core's own step and touches no other core (60_exceptions.md R175). -/
def Obligations.CoresShareNoState : Prop :=
  ∀ (p : Platform) (n : Nat) (s : State), p[n]? = some s →
    ∃ (q : Platform) (t : State), p.stepAt n = .next q ∧ step s = .next t ∧ q[n]? = some t ∧
      q.length = p.length ∧ ∀ k : Nat, k ≠ n → q[k]? = p[k]?

/-- The assembler takes every command as it is written back to that command, accepts exactly the well-formed source
commands, and refuses an operand out of range or a wrong operand count (30_encoding.md R72). -/
def Obligations.AssemblerAcceptsTheForms : Prop :=
  (∀ i : Instr, (sourceOf i).wf = true ∧ assembleCommand (sourceOf i) = .ok i) ∧
  (∀ c : SourceCommand, (∃ i, assembleCommand c = .ok i) ↔ c.wf = true) ∧
  ∀ (c : SourceCommand) (i : Instr), assembleCommand c = .ok i → sourceOf i = c

/-- The expansion of a byte sequence: `floor(m/4)` PUSH4, then one PUSH of the remaining bytes if any; it pushes exactly
the bytes, in order (30_encoding.md R73). -/
def Obligations.PushSequencePushesItsBytes : Prop :=
  ∀ m : List Byte,
    (pushSequence m).flatMap Instr.pushBytes = m ∧
    (pushSequence m).length = m.length / 4 + (if m.length % 4 = 0 then 0 else 1) ∧
    (∀ i ∈ pushSequence m, i.pushBytes ≠ []) ∧
    ∀ i ∈ (pushSequence m).take (m.length / 4), i.pushBytes.length = 4
end

