-- ==== Sys2Proof/Laws/Words.lean ====
section
/-! SUPPORT. Lengths of the byte and word sequences, and how they meet the parameters of 00_scope.md R6; fields of a
command word. -/

namespace Sys2Proof.Machine

@[simp] theorem zeros_length (k : Nat) : (zeros k).length = k := by simp [zeros]
@[simp] theorem bytes32_length (w : Word) : (bytes32 w).length = 4 := rfl
@[simp] theorem be64_length (v : BitVec 64) : (be64 v).length = 8 := by simp [be64]
@[simp] theorem slice_length (s : List Byte) (i j : Nat) : (slice s i j).length = min j s.length - i := by
  simp [slice]
@[simp] theorem blockWords_length (blk : List Byte) : (blockWords blk).length = 16 := by simp [blockWords]

/-- The schedule grows by one word for each `t`. -/
theorem scheduleFold_length (ts : List Nat) (w : List Word) :
    (ts.foldl (fun w t => w ++ [scheduleWord w t]) w).length = w.length + ts.length := by
  induction ts generalizing w with
  | nil => rfl
  | cons t ts ih => simp [ih]; omega

theorem schedule_length (blk : List Byte) : (schedule blk).length = Config.schedWords := by
  simp [schedule, scheduleFold_length, Config.schedWords]
theorem kTable_length : kTable.length = Config.kWords := by decide
theorem kPrimes_length : kPrimes.length = Config.kWords := by decide
theorem opcodeRows_length : opcodeRows.length = 12 := by decide
theorem pushBytes_length_le (i : Instr) : i.pushBytes.length ≤ Config.pushMaxBytes := by
  cases i <;> simp [Instr.pushBytes, Config.pushMaxBytes]

/-- Bit `n` of a command word is a bit of ARG below 32 and a bit of OP from 32 (30_encoding.md R60). -/
theorem commandWord_getLsbD (op : Byte) (arg : Word) (n : Nat) :
    (commandWord op arg).getLsbD n = if n < 32 then arg.getLsbD n else op.getLsbD (n - 32) := by
  by_cases h : n < 32
  · simp [commandWord, h, show n < 40 by omega]
  · by_cases h8 : n < 40
    · simp [commandWord, h, h8, BitVec.getLsbD_of_ge arg n (by omega)]
    · simp [commandWord, h, h8, show 8 ≤ n - 32 by omega]

@[simp] theorem opField_commandWord (op : Byte) (arg : Word) : opField (commandWord op arg) = op := by
  apply BitVec.eq_of_getLsbD_eq
  intro n hn
  simp [opField, commandWord_getLsbD, hn]

@[simp] theorem argField_commandWord (op : Byte) (arg : Word) : argField (commandWord op arg) = arg := by
  apply BitVec.eq_of_getLsbD_eq
  intro n hn
  simp [argField, commandWord_getLsbD, hn]

/-- A command word is its two fields (30_encoding.md R60). -/
theorem commandWord_fields (c : CommandWord) : commandWord (opField c) (argField c) = c := by
  apply BitVec.eq_of_getLsbD_eq
  intro n hn
  rw [commandWord_getLsbD]
  split
  · simp [argField, *]
  · simp [opField, show n - 32 < 8 by omega, show 32 + (n - 32) = n by omega]

theorem commandWord_and (a b : Byte) (x y : Word) :
    commandWord a x &&& commandWord b y = commandWord (a &&& b) (x &&& y) := by
  apply BitVec.eq_of_getLsbD_eq
  intro n hn
  simp only [BitVec.getLsbD_and, commandWord_getLsbD]
  split <;> rfl

/-- Bit `n` of ARG put together from its four bytes (30_encoding.md R61). -/
theorem argOfBytes_getLsbD (b0 b1 b2 b3 : Byte) (n : Nat) :
    (argOfBytes b0 b1 b2 b3).getLsbD n =
      if n < 8 then b3.getLsbD n else if n < 16 then b2.getLsbD (n - 8)
      else if n < 24 then b1.getLsbD (n - 16) else b0.getLsbD (n - 24) := by
  rcases (by omega : n < 8 ∨ (8 ≤ n ∧ n < 16) ∨ (16 ≤ n ∧ n < 24) ∨ (24 ≤ n ∧ n < 32) ∨ 32 ≤ n) with
    h | h | h | h | h
  · simp [argOfBytes, show n < 32 by omega, show n < 24 by omega, show n < 16 by omega, h]
  · simp [argOfBytes, show n < 32 by omega, show n < 24 by omega, show ¬n < 8 by omega, h.2,
      BitVec.getLsbD_of_ge b3 n (by omega)]
  · simp [argOfBytes, show n < 32 by omega, show ¬n < 16 by omega, show ¬n < 8 by omega, h.2,
      BitVec.getLsbD_of_ge b3 n (by omega), BitVec.getLsbD_of_ge b2 (n - 8) (by omega)]
  · simp [argOfBytes, show ¬n < 24 by omega, show ¬n < 16 by omega, show ¬n < 8 by omega, h.2,
      BitVec.getLsbD_of_ge b3 n (by omega), BitVec.getLsbD_of_ge b2 (n - 8) (by omega),
      BitVec.getLsbD_of_ge b1 (n - 16) (by omega)]
  · rw [BitVec.getLsbD_of_ge _ n (by omega)]
    simp [show ¬n < 24 by omega, show ¬n < 16 by omega, show ¬n < 8 by omega,
      BitVec.getLsbD_of_ge b0 (n - 24) (by omega)]

/-- ARG's bytes are masked one by one. -/
theorem argOfBytes_and (a b c d a' b' c' d' : Byte) :
    argOfBytes a b c d &&& argOfBytes a' b' c' d' =
      argOfBytes (a &&& a') (b &&& b') (c &&& c') (d &&& d') := by
  apply BitVec.eq_of_getLsbD_eq
  intro n hn
  simp only [BitVec.getLsbD_and, argOfBytes_getLsbD]
  split
  · rfl
  · split
    · rfl
    · split <;> rfl

@[simp] theorem fieldB0_argOfBytes (b0 b1 b2 b3 : Byte) : fieldB0 (argOfBytes b0 b1 b2 b3) = b0 := by
  apply BitVec.eq_of_getLsbD_eq
  intro n hn
  simp [fieldB0, argOfBytes_getLsbD, hn, show ¬24 + n < 8 by omega, show ¬24 + n < 16 by omega]
@[simp] theorem fieldB1_argOfBytes (b0 b1 b2 b3 : Byte) : fieldB1 (argOfBytes b0 b1 b2 b3) = b1 := by
  apply BitVec.eq_of_getLsbD_eq
  intro n hn
  simp [fieldB1, argOfBytes_getLsbD, hn, show 16 + n < 24 by omega, show ¬16 + n < 8 by omega]
@[simp] theorem fieldB2_argOfBytes (b0 b1 b2 b3 : Byte) : fieldB2 (argOfBytes b0 b1 b2 b3) = b2 := by
  apply BitVec.eq_of_getLsbD_eq
  intro n hn
  simp [fieldB2, argOfBytes_getLsbD, hn, show 8 + n < 16 by omega]
@[simp] theorem fieldB3_argOfBytes (b0 b1 b2 b3 : Byte) : fieldB3 (argOfBytes b0 b1 b2 b3) = b3 := by
  apply BitVec.eq_of_getLsbD_eq
  intro n hn
  simp [fieldB3, argOfBytes_getLsbD, hn]

end Sys2Proof.Machine
end

