-- ==== Sys2Proof/Laws/Decode.lean ====
section
/-! SUPPORT. What the decoder does for each value of OP, said once. -/

namespace Sys2Proof

open Sys2Proof.Machine

@[simp] theorem decode_commandWord (op : Byte) (arg : Word) :
    decode (commandWord op arg) = decodeFields op arg := by
  simp [decode]

@[simp] theorem decodeFields_nop (arg : Word) : decodeFields 0x00#8 arg = .ok .nop := rfl
@[simp] theorem decodeFields_init (arg : Word) : decodeFields 0x01#8 arg = .ok .init := rfl
@[simp] theorem decodeFields_push1 (arg : Word) : decodeFields 0x20#8 arg = .ok (.push1 (fieldB0 arg)) := rfl
@[simp] theorem decodeFields_push2 (arg : Word) :
    decodeFields 0x21#8 arg = .ok (.push2 (fieldB0 arg) (fieldB1 arg)) := rfl
@[simp] theorem decodeFields_push3 (arg : Word) :
    decodeFields 0x22#8 arg = .ok (.push3 (fieldB0 arg) (fieldB1 arg) (fieldB2 arg)) := rfl
@[simp] theorem decodeFields_push4 (arg : Word) :
    decodeFields 0x23#8 arg = .ok (.push4 (fieldB0 arg) (fieldB1 arg) (fieldB2 arg) (fieldB3 arg)) := rfl
@[simp] theorem decodeFields_final (arg : Word) : decodeFields 0x30#8 arg = .ok .final := rfl
@[simp] theorem decodeFields_rdword (arg : Word) : decodeFields 0x40#8 arg = .ok (.rdword (fieldKidx arg)) := rfl
@[simp] theorem decodeFields_rdbyte (arg : Word) : decodeFields 0x41#8 arg = .ok (.rdbyte (fieldBidx arg)) := rfl
@[simp] theorem decodeFields_rdstat (arg : Word) : decodeFields 0x50#8 arg = .ok .rdstat := rfl
@[simp] theorem decodeFields_rdlenlo (arg : Word) : decodeFields 0x51#8 arg = .ok .rdlenlo := rfl
@[simp] theorem decodeFields_rdlenhi (arg : Word) : decodeFields 0x52#8 arg = .ok .rdlenhi := rfl

/-- The twelve opcodes of the map (30_encoding.md R62). -/
def listedOpcodes : List Byte := [0x00#8, 0x01#8, 0x20#8, 0x21#8, 0x22#8, 0x23#8, 0x30#8, 0x40#8, 0x41#8, 0x50#8, 0x51#8, 0x52#8]

theorem decodeFields_unlisted {op : Byte} (h : op ∉ listedOpcodes) (arg : Word) :
    decodeFields op arg = .error (.illegal op) := by
  simp only [listedOpcodes, List.mem_cons, List.not_mem_nil, or_false, not_or] at h
  simp [decodeFields, h]

/-- Everything the decoder can answer: an opcode of the map with its command, or ILLEGAL. -/
theorem decodeFields_cases (op : Byte) (arg : Word) :
    (∃ i, op = i.opcode ∧ decodeFields op arg = .ok i) ∨
    (op ∉ listedOpcodes ∧ decodeFields op arg = .error (.illegal op)) := by
  by_cases h : op ∈ listedOpcodes
  · left
    simp only [listedOpcodes, List.mem_cons, List.not_mem_nil, or_false] at h
    rcases h with h | h | h | h | h | h | h | h | h | h | h | h <;> subst h <;> exact ⟨_, rfl, rfl⟩
  · exact .inr ⟨h, decodeFields_unlisted h arg⟩

theorem opcode_mem_listedOpcodes (i : Instr) : i.opcode ∈ listedOpcodes := by
  cases i <;> simp only [Instr.opcode] <;> decide

/-- A decoded command's opcode is the word's OP. -/
theorem decodeFields_ok_opcode {op : Byte} {arg : Word} {i : Instr} (h : decodeFields op arg = .ok i) :
    op = i.opcode := by
  obtain ⟨j, hj, hd⟩ | ⟨-, hd⟩ := decodeFields_cases op arg
  · rw [h] at hd
    cases hd
    exact hj
  · rw [h] at hd
    cases hd

theorem decode_ok_opcode {c : CommandWord} {i : Instr} (h : decode c = .ok i) : opField c = i.opcode :=
  decodeFields_ok_opcode h

end Sys2Proof
end

