-- ==== Sys2Proof/Laws/State.lean ====
section
/-! SUPPORT. What each update of the state does to each field, true by definition. -/

namespace Sys2Proof.Machine

@[simp] theorem CoreState.bufLen_eq (c : CoreState) : c.bufLen = c.buf.length := rfl

@[simp] theorem recordError_h (e : ErrCode) (c : CoreState) : (recordError e c).h = c.h := rfl
@[simp] theorem recordError_buf (e : ErrCode) (c : CoreState) : (recordError e c).buf = c.buf := rfl
@[simp] theorem recordError_phase (e : ErrCode) (c : CoreState) : (recordError e c).phase = c.phase := rfl
@[simp] theorem recordError_len (e : ErrCode) (c : CoreState) : (recordError e c).len = c.len := rfl
@[simp] theorem recordError_err (e : ErrCode) (c : CoreState) : (recordError e c).err = true := rfl
@[simp] theorem recordError_errCode (e : ErrCode) (c : CoreState) :
    (recordError e c).errCode = if c.err then c.errCode else e := rfl

@[simp] theorem processBlock_h (b : List Byte) (c : CoreState) : (processBlock b c).h = compressBlock c.h b := rfl
@[simp] theorem processBlock_buf (b : List Byte) (c : CoreState) : (processBlock b c).buf = c.buf := rfl
@[simp] theorem processBlock_phase (b : List Byte) (c : CoreState) : (processBlock b c).phase = c.phase := rfl
@[simp] theorem processBlock_len (b : List Byte) (c : CoreState) : (processBlock b c).len = c.len := rfl
@[simp] theorem processBlock_err (b : List Byte) (c : CoreState) : (processBlock b c).err = c.err := rfl
@[simp] theorem processBlock_errCode (b : List Byte) (c : CoreState) : (processBlock b c).errCode = c.errCode := rfl

@[simp] theorem appendByte_h (b : Byte) (c : CoreState) : (appendByte b c).h = c.h := rfl
@[simp] theorem appendByte_buf (b : Byte) (c : CoreState) : (appendByte b c).buf = c.buf ++ [b] := rfl
@[simp] theorem appendByte_phase (b : Byte) (c : CoreState) : (appendByte b c).phase = c.phase := rfl
@[simp] theorem appendByte_len (b : Byte) (c : CoreState) : (appendByte b c).len = c.len + 1 := rfl
@[simp] theorem appendByte_err (b : Byte) (c : CoreState) : (appendByte b c).err = c.err := rfl
@[simp] theorem appendByte_errCode (b : Byte) (c : CoreState) : (appendByte b c).errCode = c.errCode := rfl

@[simp] theorem finalize_buf (c : CoreState) : (finalize c).buf = [] := rfl
@[simp] theorem finalize_phase (c : CoreState) : (finalize c).phase = .done := rfl

@[simp] theorem resetMachine_core (s : State) : (resetMachine s).core = CoreState.reset := rfl
@[simp] theorem resetMachine_rsp (s : State) : (resetMachine s).rsp = none := rfl
@[simp] theorem resetMachine_inputs (s : State) : (resetMachine s).inputs = s.inputs := rfl

@[simp] theorem withFetchWord_core (s : State) (n w : Nat) : (s.withFetchWord n w).core = s.core := rfl
@[simp] theorem withFetchWord_rsp (s : State) (n w : Nat) : (s.withFetchWord n w).rsp = s.rsp := rfl
@[simp] theorem withFetchWord_inputs (s : State) (n w : Nat) :
    (s.withFetchWord n w).inputs = .command (tableWord n w) :: s.inputs := rfl

namespace Handshake

@[simp] theorem keepWaiting_machine (x : Pins) (p : PortState) : (keepWaiting x p).machine = p.machine := rfl
@[simp] theorem keepWaiting_inflight (x : Pins) (p : PortState) : (keepWaiting x p).inflight = p.inflight := rfl
@[simp] theorem keepWaiting_waiting (x : Pins) (p : PortState) : (keepWaiting x p).waiting = x.presented := rfl
@[simp] theorem resetEdge_machine (p : PortState) : (resetEdge p).machine = resetMachine p.machine := rfl
@[simp] theorem resetEdge_inflight (p : PortState) : (resetEdge p).inflight = none := rfl
@[simp] theorem resetEdge_waiting (p : PortState) : (resetEdge p).waiting = p.waiting := rfl
@[simp] theorem acceptEdge_core (c : CommandWord) (p : PortState) : (acceptEdge c p).machine.core = p.machine.core := rfl
@[simp] theorem acceptEdge_rsp (c : CommandWord) (p : PortState) : (acceptEdge c p).machine.rsp = none := rfl
@[simp] theorem acceptEdge_waiting (c : CommandWord) (p : PortState) : (acceptEdge c p).waiting = none := rfl

end Handshake

end Sys2Proof.Machine
end

