-- ==== Sys2Proof/Laws/Ops.lean ====
section
/-! SUPPORT. For each shared operation, everything it can do, said once. -/

namespace Sys2Proof.Machine

theorem accept_next_iff {c : CoreState} {d : Word} {s t : State} :
    accept c d s = .next t ↔ t = { core := c, rsp := some ⟨true, d⟩, inputs := s.inputs } := by
  simp [accept, eq_comm]

theorem reject_next_iff {e : ErrCode} {s t : State} :
    reject e s = .next t ↔
      t = { core := recordError e s.core, rsp := some ⟨false, e.word⟩, inputs := s.inputs } := by
  simp [reject, eq_comm]

theorem pushCommand_absorb {bs : List Byte} {s : State} (h : s.core.phase = .absorb) :
    pushCommand bs s = accept (absorbBytes bs s.core) 0 s := by
  simp [pushCommand, h]

theorem pushCommand_done {bs : List Byte} {s : State} (h : s.core.phase = .done) :
    pushCommand bs s = reject .sequence s := by
  simp [pushCommand, h]

theorem readDigest_absorb {f : CoreState → Word} {s : State} (h : s.core.phase = .absorb) :
    readDigest f s = reject .notDone s := by
  simp [readDigest, h]

theorem readDigest_done {f : CoreState → Word} {s : State} (h : s.core.phase = .done) :
    readDigest f s = accept s.core (f s.core) s := by
  simp [readDigest, h]

theorem execFinal_absorb {s : State} (h : s.core.phase = .absorb) :
    execFinal s = accept (finalize s.core) 0 s := by
  simp [execFinal, h]

theorem execFinal_done {s : State} (h : s.core.phase = .done) : execFinal s = reject .sequence s := by
  simp [execFinal, h]

theorem Phase.absorb_or_done (p : Phase) : p = .absorb ∨ p = .done := by
  cases p <;> simp

/-- A PUSH absorbs its bytes or is rejected, by the phase alone. -/
theorem pushCommand_cases {bs : List Byte} {s t : State} (h : pushCommand bs s = .next t) :
    (s.core.phase = .absorb ∧ t = { core := absorbBytes bs s.core, rsp := some ⟨true, 0⟩, inputs := s.inputs }) ∨
    (s.core.phase = .done ∧
      t = { core := recordError .sequence s.core, rsp := some ⟨false, ErrCode.sequence.word⟩, inputs := s.inputs }) := by
  obtain hp | hp := s.core.phase.absorb_or_done
  · exact .inl ⟨hp, accept_next_iff.1 (pushCommand_absorb hp ▸ h)⟩
  · exact .inr ⟨hp, reject_next_iff.1 (pushCommand_done hp ▸ h)⟩

/-- A digest read answers or is rejected, by the phase alone. -/
theorem readDigest_cases {f : CoreState → Word} {s t : State} (h : readDigest f s = .next t) :
    (s.core.phase = .done ∧ t = { core := s.core, rsp := some ⟨true, f s.core⟩, inputs := s.inputs }) ∨
    (s.core.phase = .absorb ∧
      t = { core := recordError .notDone s.core, rsp := some ⟨false, ErrCode.notDone.word⟩, inputs := s.inputs }) := by
  obtain hp | hp := s.core.phase.absorb_or_done
  · exact .inr ⟨hp, reject_next_iff.1 (readDigest_absorb hp ▸ h)⟩
  · exact .inl ⟨hp, accept_next_iff.1 (readDigest_done hp ▸ h)⟩

/-- FINAL finishes the message or is rejected, by the phase alone. -/
theorem execFinal_cases {s t : State} (h : execFinal s = .next t) :
    (s.core.phase = .absorb ∧ t = { core := finalize s.core, rsp := some ⟨true, 0⟩, inputs := s.inputs }) ∨
    (s.core.phase = .done ∧
      t = { core := recordError .sequence s.core, rsp := some ⟨false, ErrCode.sequence.word⟩, inputs := s.inputs }) := by
  obtain hp | hp := s.core.phase.absorb_or_done
  · exact .inl ⟨hp, accept_next_iff.1 (execFinal_absorb hp ▸ h)⟩
  · exact .inr ⟨hp, reject_next_iff.1 (execFinal_done hp ▸ h)⟩

/-- The two ends of an absorbed byte: the window has room left, or it is full and is processed. -/
theorem absorbByte_cases (c : CoreState) (b : Byte) :
    (c.buf.length + 1 ≠ 64 ∧ absorbByte c b = appendByte b c) ∨
    (c.buf.length + 1 = 64 ∧
      absorbByte c b = { c with h := compressBlock c.h (c.buf ++ [b]), buf := [], len := c.len + 1 }) := by
  by_cases h : c.buf.length + 1 = 64
  · exact .inr ⟨h, by simp [absorbByte, flushFull, h, processBlock, appendByte]⟩
  · exact .inl ⟨h, by simp [absorbByte, flushFull, h]⟩

@[simp] theorem absorbByte_phase (c : CoreState) (b : Byte) : (absorbByte c b).phase = c.phase := by
  obtain ⟨-, h⟩ | ⟨-, h⟩ := absorbByte_cases c b <;> simp [h]
@[simp] theorem absorbByte_len (c : CoreState) (b : Byte) : (absorbByte c b).len = c.len + 1 := by
  obtain ⟨-, h⟩ | ⟨-, h⟩ := absorbByte_cases c b <;> simp [h]
@[simp] theorem absorbByte_err (c : CoreState) (b : Byte) : (absorbByte c b).err = c.err := by
  obtain ⟨-, h⟩ | ⟨-, h⟩ := absorbByte_cases c b <;> simp [h]
@[simp] theorem absorbByte_errCode (c : CoreState) (b : Byte) : (absorbByte c b).errCode = c.errCode := by
  obtain ⟨-, h⟩ | ⟨-, h⟩ := absorbByte_cases c b <;> simp [h]

@[simp] theorem absorbBytes_nil (c : CoreState) : absorbBytes [] c = c := rfl
@[simp] theorem absorbBytes_cons (b : Byte) (bs : List Byte) (c : CoreState) :
    absorbBytes (b :: bs) c = absorbBytes bs (absorbByte c b) := rfl
theorem absorbBytes_append (bs bs' : List Byte) (c : CoreState) :
    absorbBytes (bs ++ bs') c = absorbBytes bs' (absorbBytes bs c) := by
  simp [absorbBytes]

@[simp] theorem absorbBytes_phase (bs : List Byte) (c : CoreState) : (absorbBytes bs c).phase = c.phase := by
  induction bs generalizing c with
  | nil => rfl
  | cons b bs ih => simp [ih]
@[simp] theorem absorbBytes_err (bs : List Byte) (c : CoreState) : (absorbBytes bs c).err = c.err := by
  induction bs generalizing c with
  | nil => rfl
  | cons b bs ih => simp [ih]
@[simp] theorem absorbBytes_errCode (bs : List Byte) (c : CoreState) : (absorbBytes bs c).errCode = c.errCode := by
  induction bs generalizing c with
  | nil => rfl
  | cons b bs ih => simp [ih]
theorem absorbBytes_len (bs : List Byte) (c : CoreState) :
    (absorbBytes bs c).len = c.len + BitVec.ofNat 64 bs.length := by
  induction bs generalizing c with
  | nil => simp
  | cons b bs ih =>
    simp only [absorbBytes_cons, ih, absorbByte_len, List.length_cons, BitVec.add_assoc, Nat.add_comm bs.length 1]
    rw [BitVec.ofNat_add]
    rfl

/-- Processing blocks one after the other changes `H` alone. -/
theorem processBlocks_eq (bs : List (List Byte)) (c : CoreState) :
    bs.foldl (fun c blk => processBlock blk c) c = { c with h := bs.foldl compressBlock c.h } := by
  induction bs generalizing c with
  | nil => rfl
  | cons b bs ih => rw [List.foldl_cons, ih]; rfl

@[simp] theorem finalize_h (c : CoreState) :
    (finalize c).h = (padTail c.buf (lengthField c)).foldl compressBlock c.h := by
  simp [finalize, processBlocks_eq]
@[simp] theorem finalize_len (c : CoreState) : (finalize c).len = c.len := by
  simp [finalize, processBlocks_eq]
@[simp] theorem finalize_err (c : CoreState) : (finalize c).err = c.err := by
  simp [finalize, processBlocks_eq]
@[simp] theorem finalize_errCode (c : CoreState) : (finalize c).errCode = c.errCode := by
  simp [finalize, processBlocks_eq]

/-- A command word is run as the command it decodes to. -/
theorem runCommand_ok {c : CommandWord} {i : Instr} (h : decode c = .ok i) (s : State) :
    runCommand c s = exec i s := by
  simp [runCommand, h]

/-- A command word that decodes to no command is rejected with ILLEGAL. -/
theorem runCommand_error {c : CommandWord} {e : DecodeReject} (h : decode c = .error e) (s : State) :
    runCommand c s = reject .illegal s := by
  simp [runCommand, h]

end Sys2Proof.Machine
end

