-- ==== Sys2Proof/Laws/Exec.lean ====
section
/-! SUPPORT. What one command and one command word can do, said once: the cases of `exec` and of `runCommand`, and how
runs of command words are put together. -/

namespace Sys2Proof.Machine

/-- Every command, by whether its phase accepts it: its effect, or the rejection. -/
theorem exec_eq (i : Instr) (s : State) :
    exec i s =
      if acceptedIn i s.core.phase then
        match i with
        | .nop => accept s.core 0 s
        | .init => accept CoreState.reset 0 s
        | .push1 a => accept (absorbBytes [a] s.core) 0 s
        | .push2 a b => accept (absorbBytes [a, b] s.core) 0 s
        | .push3 a b c => accept (absorbBytes [a, b, c] s.core) 0 s
        | .push4 a b c d => accept (absorbBytes [a, b, c, d] s.core) 0 s
        | .final => accept (finalize s.core) 0 s
        | .rdword k => accept s.core (digestWord k s.core) s
        | .rdbyte n => accept s.core (digestByte n s.core) s
        | .rdstat => accept s.core (statusWord s.core) s
        | .rdlenlo => accept s.core (s.core.len.extractLsb' 0 32) s
        | .rdlenhi => accept s.core (s.core.len.extractLsb' 32 32) s
      else reject (if s.core.phase = .done then .sequence else .notDone) s := by
  obtain hp | hp := s.core.phase.absorb_or_done
  · cases i with
    | nop | init | rdstat | rdlenlo | rdlenhi => rfl
    | push1 | push2 | push3 | push4 => (simp only [acceptedIn, hp]; exact pushCommand_absorb hp)
    | final => (simp only [acceptedIn, hp]; exact execFinal_absorb hp)
    | rdword | rdbyte => (simp only [acceptedIn, hp]; exact readDigest_absorb hp)
  · cases i with
    | nop | init | rdstat | rdlenlo | rdlenhi => rfl
    | push1 | push2 | push3 | push4 => (simp only [acceptedIn, hp]; exact pushCommand_done hp)
    | final => (simp only [acceptedIn, hp]; exact execFinal_done hp)
    | rdword | rdbyte => (simp only [acceptedIn, hp]; exact readDigest_done hp)

/-- The four PUSH commands are one operation on the bytes they carry. -/
theorem exec_push {i : Instr} (h : i.pushBytes ≠ []) : exec i = pushCommand i.pushBytes := by
  cases i <;> simp [Instr.pushBytes] at h <;> rfl

/-- A PUSH word is a push of the bytes it carries. -/
theorem runCommand_push {w : CommandWord} (h : pushedBytes w ≠ []) (s : State) :
    runCommand w s = pushCommand (pushedBytes w) s := by
  unfold pushedBytes at h ⊢
  cases hd : decode w with
  | ok i =>
    simp only [hd] at h ⊢
    rw [runCommand_ok hd, exec_push h]
  | error e => simp [hd] at h

/-- The ways a command word can end: rejected, INIT, FINAL, PUSH, or the core unchanged. -/
theorem runCommand_cases (c : CommandWord) (s : State) :
    ∃ t, runCommand c s = .next t ∧
      ((∃ e, e ≠ .noError ∧ t.core = recordError e s.core ∧ t.rsp = some ⟨false, e.word⟩ ∧
          decode c ≠ .ok .init ∧ (decode c = .ok .final → s.core.phase = .done) ∧
          (pushedBytes c ≠ [] → s.core.phase = .done)) ∨
        (decode c = .ok .init ∧ t.core = CoreState.reset) ∨
        (decode c = .ok .final ∧ s.core.phase = .absorb ∧ t.core = finalize s.core) ∨
        (pushedBytes c ≠ [] ∧ s.core.phase = .absorb ∧ t.core = absorbBytes (pushedBytes c) s.core ∧
          decode c ≠ .ok .init ∧ decode c ≠ .ok .final) ∨
        (t.core = s.core ∧ pushedBytes c = [] ∧ decode c ≠ .ok .init ∧ decode c ≠ .ok .final)) := by
  cases hd : decode c with
  | error e =>
    exact ⟨_, runCommand_error hd _, .inl ⟨_, by simp, rfl, rfl, by simp, by simp, by simp [pushedBytes, hd]⟩⟩
  | ok i =>
    rw [runCommand_ok hd, exec_eq]
    by_cases ha : acceptedIn i s.core.phase = true
    · rw [if_pos ha]
      cases i <;> refine ⟨_, rfl, ?_⟩ <;> simp [acceptedIn] at ha <;>
        simp [pushedBytes, hd, Instr.pushBytes, ha]
    · rw [if_neg ha]
      refine ⟨_, rfl, .inl ⟨_, by split <;> simp, rfl, rfl, ?_⟩⟩
      cases i <;> simp [acceptedIn] at ha <;> simp [pushedBytes, hd, Instr.pushBytes]
      all_goals cases hp : s.core.phase <;> simp [hp] at ha ⊢

/-- Runs of command words compose, and their responses are joined. -/
theorem runCommands_append {ws vs : List CommandWord} {s t u : State} {rs us : List Response}
    (h : runCommands ws s = .next (t, rs)) (h' : runCommands vs t = .next (u, us)) :
    runCommands (ws ++ vs) s = .next (u, rs ++ us) := by
  induction ws generalizing s rs with
  | nil =>
    simp only [runCommands, Host.Outcome.next.injEq, Prod.mk.injEq] at h
    obtain ⟨rfl, rfl⟩ := h
    simpa using h'
  | cons w ws ih =>
    simp only [runCommands, List.cons_append] at h ⊢
    cases e : runCommand w s with
    | next s' =>
      simp only [e] at h ⊢
      cases e2 : runCommands ws s' with
      | next p =>
        obtain ⟨s'', rs'⟩ := p
        simp only [e2, Host.Outcome.next.injEq, Prod.mk.injEq] at h
        obtain ⟨rfl, rfl⟩ := h
        rw [ih e2]
        simp
      | fault f => simp [e2] at h
      | refused f => simp [e2] at h
    | fault f => simp [e] at h
    | refused f => simp [e] at h

end Sys2Proof.Machine
end

