-- ==== Sys2Proof/Laws/Padding.lean ====
section
/-! SUPPORT. A message as its full windows and its last partial window, the padded tail, and a run of absorbed bytes
that does not fill the window. -/

namespace Sys2Proof.Machine

theorem partialWindow_length (m : List Byte) : (partialWindow m).length = m.length % 64 := by
  simp [partialWindow, slice]; omega

theorem partialWindow_eq_drop (m : List Byte) : partialWindow m = m.drop (64 * (m.length / 64)) := by
  rw [partialWindow, slice, List.take_length]; congr 1; omega

theorem fullBlocks_eq_map (m : List Byte) :
    fullBlocks m = (List.range (m.length / 64)).map fun q => (m.drop (64 * q)).take 64 := by
  simp [fullBlocks, slice, List.drop_take]

theorem fullBlocks_flatten_take (m : List Byte) (n : Nat) (h : 64 * n ≤ m.length) :
    ((List.range n).map fun q => slice m (64 * q) (64 * q + 64)).flatten = m.take (64 * n) := by
  induction n with
  | zero => simp
  | succ n ih =>
    rw [List.range_succ, List.map_append, List.flatten_append, ih (by omega)]
    simp only [List.map_cons, List.map_nil, List.flatten_cons, List.flatten_nil, List.append_nil, slice]
    rw [show 64 * (n + 1) = 64 * n + 64 by omega, List.drop_take]
    simp [List.take_add]

/-- The full windows and the partial window are the message. -/
theorem fullBlocks_append_partialWindow (m : List Byte) : (fullBlocks m).flatten ++ partialWindow m = m := by
  rw [fullBlocks, fullBlocks_flatten_take m _ (by omega), partialWindow, slice, List.take_length,
    show m.length - m.length % 64 = 64 * (m.length / 64) by omega, List.take_append_drop]

theorem zeroCount_of_le {r : Nat} (h : r ≤ 55) : zeroCount r = 55 - r := by unfold zeroCount; omega
theorem zeroCount_of_ge {r : Nat} (h : 56 ≤ r) (h' : r ≤ 63) : zeroCount r = (63 - r) + 56 := by
  unfold zeroCount; omega

/-- The tail fills one block, or two (41_padder.md R82). -/
theorem paddedTail_length {t : List Byte} (l : BitVec 64) (h : t.length ≤ 63) :
    (paddedTail t l).length = if t.length ≤ 55 then 64 else 128 := by
  split
  · simp [paddedTail, zeroCount_of_le, *]; omega
  · simp [paddedTail, zeroCount_of_ge (show 56 ≤ t.length by omega) h]; omega

/-- Bytes that leave room in the window only lengthen it. -/
theorem absorbBytes_of_lt (bs : List Byte) (c : CoreState) (h : c.buf.length + bs.length < 64) :
    absorbBytes bs c = { c with buf := c.buf ++ bs, len := c.len + BitVec.ofNat 64 bs.length } := by
  induction bs generalizing c with
  | nil => simp
  | cons b bs ih =>
    simp only [List.length_cons] at h
    obtain ⟨-, h2⟩ | ⟨h1, -⟩ := absorbByte_cases c b
    · rw [absorbBytes_cons, h2, ih _ (by simp; omega)]
      simp [appendByte, BitVec.add_assoc, Nat.add_comm bs.length 1, BitVec.ofNat_add]
    · omega

end Sys2Proof.Machine
end

