-- ==== Sys2Proof/Laws/PerInstr.lean ====
section
/-! SUPPORT. The per-instruction family EncodesInItsRow: the word the assembler writes for a command is of exactly that
command's row of spec/opcode_table.json, and holds 0 in every bit the command does not use (30_encoding.md R66, R72). -/

namespace Sys2Proof.Laws.EncodesInItsRow

open Sys2Proof.Machine

/-- The word of `i` is of the row whose pattern is `i`'s opcode, of no other row, and has no unused bit set. -/
def Statement (i : Instr) : Prop :=
  (∀ r ∈ opcodeRows, encode i &&& r.mask = r.pattern ↔ r.pattern = commandWord i.opcode 0) ∧
  (∃ r ∈ opcodeRows, r.pattern = commandWord i.opcode 0) ∧
  encode i &&& ~~~i.usedBits = 0

/-- Every row masks OP alone. -/
theorem rowMask_eq : ∀ r ∈ opcodeRows, r.mask = commandWord 0xff 0 := by decide

/-- The row's mask leaves the opcode of an encoded command. -/
theorem encode_and_mask (i : Instr) : encode i &&& commandWord 0xff 0 = commandWord i.opcode 0 := by
  rw [encode, commandWord_and]
  congr 1
  · exact BitVec.and_allOnes
  · exact BitVec.and_zero

/-- What is left to show for a command: its opcode has a row, and its ARG lies in its used bits. -/
theorem of_opcode_and_arg {i : Instr} (hrow : ∃ r ∈ opcodeRows, r.pattern = commandWord i.opcode 0)
    (harg : i.arg &&& ~~~i.usedArg = 0) : Statement i := by
  refine ⟨fun r hr => ?_, hrow, ?_⟩
  · rw [rowMask_eq r hr, encode_and_mask, eq_comm]
  · have hnot : ~~~i.usedBits = commandWord 0 (~~~i.usedArg) := by
      apply BitVec.eq_of_getLsbD_eq
      intro n hn
      simp only [Instr.usedBits, BitVec.getLsbD_not, commandWord_getLsbD]
      split
      · simp [*]
      · have : ∀ m < 8, (!(0xff#8).getLsbD m) = (0#8).getLsbD m := by decide
        simpa [hn] using this (n - 32) (by omega)
    rw [hnot, encode, commandWord_and, harg]
    exact congrArg (commandWord · 0) BitVec.and_zero

theorem nop : Statement .nop := of_opcode_and_arg (by decide) (by decide)
theorem init : Statement .init := of_opcode_and_arg (by decide) (by decide)
/-- ARG has no bit outside the mask `m` when none of its bytes has. -/
theorem arg_within {m : Word} {a b c d a' b' c' d' : Byte} (hm : ~~~m = argOfBytes a' b' c' d')
    (h : argOfBytes (a &&& a') (b &&& b') (c &&& c') (d &&& d') = 0) :
    argOfBytes a b c d &&& ~~~m = 0 := by
  rw [hm, argOfBytes_and, h]

theorem push1 (b0 : Byte) : Statement (.push1 b0) :=
  of_opcode_and_arg (by simp only [Instr.opcode]; decide)
    (arg_within (by decide : ~~~(0xff000000 : Word) = argOfBytes 0 0xff 0xff 0xff) (by simp [argOfBytes]))
theorem push2 (b0 b1 : Byte) : Statement (.push2 b0 b1) :=
  of_opcode_and_arg (by simp only [Instr.opcode]; decide)
    (arg_within (by decide : ~~~(0xffff0000 : Word) = argOfBytes 0 0 0xff 0xff) (by simp [argOfBytes]))
theorem push3 (b0 b1 b2 : Byte) : Statement (.push3 b0 b1 b2) :=
  of_opcode_and_arg (by simp only [Instr.opcode]; decide)
    (arg_within (by decide : ~~~(0xffffff00 : Word) = argOfBytes 0 0 0 0xff) (by simp [argOfBytes]))
theorem push4 (b0 b1 b2 b3 : Byte) : Statement (.push4 b0 b1 b2 b3) :=
  of_opcode_and_arg (by simp only [Instr.opcode]; decide)
    (arg_within (by decide : ~~~(0xffffffff : Word) = argOfBytes 0 0 0 0) (by simp [argOfBytes]))
theorem rdword (k : BitVec 3) : Statement (.rdword k) :=
  of_opcode_and_arg (by simp only [Instr.opcode]; decide) (by revert k; simp only [Instr.arg, Instr.usedArg]; decide)
theorem rdbyte (i : BitVec 5) : Statement (.rdbyte i) :=
  of_opcode_and_arg (by simp only [Instr.opcode]; decide) (by revert i; simp only [Instr.arg, Instr.usedArg]; decide)

theorem final : Statement .final := of_opcode_and_arg (by decide) (by decide)
theorem rdstat : Statement .rdstat := of_opcode_and_arg (by decide) (by decide)
theorem rdlenlo : Statement .rdlenlo := of_opcode_and_arg (by decide) (by decide)
theorem rdlenhi : Statement .rdlenhi := of_opcode_and_arg (by decide) (by decide)

end Sys2Proof.Laws.EncodesInItsRow
end

