-- ==== Sys2Proof/Laws/Schedule.lean ====
section
/-! SUPPORT. The schedule as it grows, one word at a time, and big-endian words and their bytes. -/

namespace Sys2Proof.Machine

/-- The schedule after `n` words beyond the first sixteen. -/
def schedulePrefix (blk : List Byte) (n : Nat) : List Word :=
  (List.range' 16 n).foldl (fun w t => w ++ [scheduleWord w t]) (blockWords blk)

theorem schedule_eq_prefix (blk : List Byte) : schedule blk = schedulePrefix blk 48 := rfl

theorem schedulePrefix_length (blk : List Byte) (n : Nat) : (schedulePrefix blk n).length = 16 + n := by
  simp [schedulePrefix, scheduleFold_length]

theorem schedulePrefix_succ (blk : List Byte) (n : Nat) :
    schedulePrefix blk (n + 1) = schedulePrefix blk n ++ [scheduleWord (schedulePrefix blk n) (16 + n)] := by
  simp [schedulePrefix, List.range'_concat]

/-- A word once computed stays. -/
theorem schedulePrefix_getD_of_le (blk : List Byte) {a b i : Nat} (hab : a ≤ b) (h : i < 16 + a) :
    (schedulePrefix blk b).getD i 0 = (schedulePrefix blk a).getD i 0 := by
  obtain ⟨k, rfl⟩ := Nat.exists_eq_add_of_le hab
  induction k with
  | zero => rfl
  | succ k ih =>
    rw [← ih (by omega), ← Nat.add_assoc, schedulePrefix_succ]
    simp only [List.getD_eq_getElem?_getD]
    rw [List.getElem?_append_left (by rw [schedulePrefix_length]; omega)]

/-- The word that the schedule's growth adds. -/
theorem schedulePrefix_getD_last (blk : List Byte) (n : Nat) :
    (schedulePrefix blk (n + 1)).getD (16 + n) 0 = scheduleWord (schedulePrefix blk n) (16 + n) := by
  rw [schedulePrefix_succ, List.getD_eq_getElem?_getD,
    List.getElem?_append_right (by rw [schedulePrefix_length])]
  simp [schedulePrefix_length]

/-- The first sixteen words are the block's (42_scheduler.md R100). -/
theorem schedule_getElem?_of_lt (blk : List Byte) {i : Nat} (h : i < 16) :
    (schedule blk)[i]? = some (be32 blk (4 * i)) := by
  have hl : i < (schedule blk).length := by
    rw [schedule_eq_prefix, schedulePrefix_length]; omega
  have hp := schedulePrefix_getD_of_le blk (Nat.zero_le 48) (i := i) (by omega)
  rw [← schedule_eq_prefix, List.getD_eq_getElem?_getD, List.getElem?_eq_getElem hl] at hp
  rw [List.getElem?_eq_getElem hl]
  simp only [Option.getD_some] at hp
  rw [hp]
  simp [schedulePrefix, blockWords, h]

/-- A word read big-endian gives its four bytes back. -/
theorem bytes32_be32 (s : List Byte) (i : Nat) :
    bytes32 (be32 s i) = [s.getD i 0, s.getD (i + 1) 0, s.getD (i + 2) 0, s.getD (i + 3) 0] := by
  have h0 := fieldB0_argOfBytes (s.getD i 0) (s.getD (i + 1) 0) (s.getD (i + 2) 0) (s.getD (i + 3) 0)
  have h1 := fieldB1_argOfBytes (s.getD i 0) (s.getD (i + 1) 0) (s.getD (i + 2) 0) (s.getD (i + 3) 0)
  have h2 := fieldB2_argOfBytes (s.getD i 0) (s.getD (i + 1) 0) (s.getD (i + 2) 0) (s.getD (i + 3) 0)
  have h3 := fieldB3_argOfBytes (s.getD i 0) (s.getD (i + 1) 0) (s.getD (i + 2) 0) (s.getD (i + 3) 0)
  simp only [fieldB0, fieldB1, fieldB2, fieldB3] at h0 h1 h2 h3
  show bytes32 (argOfBytes _ _ _ _) = _
  simp only [bytes32, h0, h1, h2, h3]

/-- A word is its four bytes, most significant first (00_scope.md R10). -/
theorem argOfBytes_fields (w : Word) : argOfBytes (fieldB0 w) (fieldB1 w) (fieldB2 w) (fieldB3 w) = w := by
  apply BitVec.eq_of_getLsbD_eq
  intro n hn
  rw [argOfBytes_getLsbD]
  split
  · simp [fieldB3, *]
  split
  · simp [fieldB2, show n - 8 < 8 by omega, show 8 + (n - 8) = n by omega]
  split
  · simp [fieldB1, show n - 16 < 8 by omega, show 16 + (n - 16) = n by omega]
  · simp [fieldB0, show n - 24 < 8 by omega, show 24 + (n - 24) = n by omega]

end Sys2Proof.Machine
end

