-- ==== Sys2Proof/Tests/Slice0.lean ====
section
/-! SUPPORT. The model's own tests. Every expected value is taken from spec/95_test_vectors.md or from the example of the
rule that the comment names. The theorems witness_<Name> show a concrete input that meets every hypothesis of
Obligations.<Name>. -/

namespace Sys2Proof.Tests

-- One theorem at a time: many proofs by evaluation at once would need more memory than the check allows.
set_option Elab.async false

open Sys2Proof.Machine

/-! ## Helpers -/

/-- The next state of an outcome. -/
def nextOf {σ φ ρ : Type} (o : Host.Outcome σ φ ρ) : Option σ :=
  match o with
  | .next s => some s
  | .fault _ => none
  | .refused _ => none

/-- A small state: a phase, the bytes in the window, the byte counter and the digest state. -/
def mk (phase : Phase) (buf : List Byte) (len : BitVec 64) (h : Vector Word 8) : State :=
  { core := { h := h, buf := buf, phase := phase, len := len, err := false, errCode := .noError }, rsp := none, inputs := [] }

/-- The same state with an error recorded. -/
def failed (e : ErrCode) (s : State) : State := { s with core := { s.core with err := true, errCode := e } }

/-- `n` bytes "a", not yet compressed. -/
def absorbed (n : Nat) : State := mk .absorb (List.replicate n 0x61) (BitVec.ofNat 64 n) iv

/-- Digest state of the empty message (L1-1). -/
def emptyDigest : Vector Word 8 :=
  #v[0xe3b0c442, 0x98fc1c14, 0x9afbf4c8, 0x996fb924, 0x27ae41e4, 0x649b934c, 0xa495991b, 0x7852b855]

/-- Digest state of "abc" (L1-2). -/
def abcDigest : Vector Word 8 :=
  #v[0xba7816bf, 0x8f01cfea, 0x414140de, 0x5dae2223, 0xb00361a3, 0x96177a9c, 0xb410ff61, 0xf20015ad]

/-- After FINAL of the empty message, and of "abc". -/
def doneEmpty : State := mk .done [] 0 emptyDigest
def doneAbc : State := mk .done [] 3 abcDigest

/-- The "abc" block (42_scheduler.md R100). -/
def abcBlock : List Byte := [0x61, 0x62, 0x63, 0x80] ++ zeros 59 ++ [0x18]

/-- The response and the core's state after a command. -/
def response (o : Host.Outcome State Fault Refusal) : Option Response := (nextOf o).bind (·.rsp)
def coreAfter (o : Host.Outcome State Fault Refusal) : Option CoreState := (nextOf o).map (·.core)

/-! ## Well-formedness: what the assembler refuses (30_encoding.md R72) -/

theorem test_wf_push2 : (SourceCommand.mk ['P', 'U', 'S', 'H', '2'] [0, 255]).wf = true := by decide
theorem test_wf_rdword_top : (SourceCommand.mk ['R', 'D', 'W', 'O', 'R', 'D'] [7]).wf = true := by decide
theorem test_wf_unknown_mnemonic : (SourceCommand.mk ['P', 'U', 'S', 'H', '5'] [1]).wf = false := by decide
theorem test_wf_operand_missing : (SourceCommand.mk ['P', 'U', 'S', 'H', '2'] [1]).wf = false := by decide
theorem test_wf_operand_too_many : (SourceCommand.mk ['N', 'O', 'P'] [0]).wf = false := by decide
theorem test_wf_byte_out_of_range : (SourceCommand.mk ['P', 'U', 'S', 'H', '1'] [256]).wf = false := by decide
theorem test_wf_kidx_out_of_range : (SourceCommand.mk ['R', 'D', 'W', 'O', 'R', 'D'] [8]).wf = false := by decide
theorem test_wf_bidx_out_of_range : (SourceCommand.mk ['R', 'D', 'B', 'Y', 'T', 'E'] [32]).wf = false := by decide

/-! ## Decoding: a word of each command, written out bit by bit from the opcode map, OP then ARG (R60 to R65) -/

theorem test_decode_nop : decode 0b0000000000000000000000000000000000000000 = .ok .nop := by decide
theorem test_decode_init : decode 0b0000000100000000000000000000000000000000 = .ok .init := by decide
theorem test_decode_push1 : decode 0b0010000001100001000000000000000000000000 = .ok (.push1 0x61) := by decide
theorem test_decode_push2 : decode 0b0010000101100001011000100000000000000000 = .ok (.push2 0x61 0x62) := by decide
theorem test_decode_push3 : decode 0b0010001001100001011000100110001100000000 = .ok (.push3 0x61 0x62 0x63) := by decide
theorem test_decode_push4 :
    decode 0b0010001101111000011110010111101001110111 = .ok (.push4 0x78 0x79 0x7a 0x77) := by decide
theorem test_decode_final : decode 0b0011000000000000000000000000000000000000 = .ok .final := by decide
theorem test_decode_rdword : decode 0b0100000000000000000000000000000000000111 = .ok (.rdword 7) := by decide
theorem test_decode_rdbyte : decode 0b0100000100000000000000000000000000011111 = .ok (.rdbyte 31) := by decide
theorem test_decode_rdstat : decode 0b0101000000000000000000000000000000000000 = .ok .rdstat := by decide
theorem test_decode_rdlenlo : decode 0b0101000100000000000000000000000000000000 = .ok .rdlenlo := by decide
theorem test_decode_rdlenhi : decode 0b0101001000000000000000000000000000000000 = .ok .rdlenhi := by decide

/-- D-DEC: unlisted values of OP next to listed ones. -/
theorem test_decode_illegal :
    decode 0x0200000000 = .error (.illegal 0x02) ∧ decode 0x1f00000000 = .error (.illegal 0x1f) ∧
    decode 0x2400000000 = .error (.illegal 0x24) ∧ decode 0x2f00000000 = .error (.illegal 0x2f) ∧
    decode 0x3100000000 = .error (.illegal 0x31) ∧ decode 0x4200000000 = .error (.illegal 0x42) ∧
    decode 0x5300000000 = .error (.illegal 0x53) ∧ decode 0xffffffffff = .error (.illegal 0xff) := by decide

/-- Bits of ARG that a command ignores (D-DEC). -/
theorem test_decode_ignored_bits :
    decode 0x00ffffffff = .ok .nop ∧ decode 0x2061ffffff = .ok (.push1 0x61) ∧
    decode 0x40fffffff8 = .ok (.rdword 0) ∧ decode 0x410000003f = .ok (.rdbyte 31) := by decide

/-- The opcode table has twelve rows with different patterns, and a table word decodes as the port word does. -/
theorem test_opcode_rows : (opcodeRows.map (·.pattern)).Nodup := by decide
theorem test_table_word : decodeTableWord 40 0x2261626300 = some (.push3 0x61 0x62 0x63) := by decide

/-! ## Word functions (D-FUN) -/

theorem test_rotr : rotr 0x12345678 1 = 0x091a2b3c ∧ rotr 0x12345678 31 = 0x2468acf0 := by decide
theorem test_gamma : gamma0 0x12345678 = 0xe7fce6ee ∧ gamma1 0x12345678 = 0xa1f78649 := by decide
theorem test_sigma : sigma0 0x12345678 = 0x66146474 ∧ sigma1 0x12345678 = 0x3561abda := by decide
theorem test_ch_maj :
    ch 0x12345678 0x9abcdef0 0x0fedcba9 = 0x1ffddff1 ∧ maj 0x12345678 0x9abcdef0 0x0fedcba9 = 0x1abcdef8 := by decide

/-! ## Scheduler, compressor, padder (D-SCH, D-CMP, D-PAD) -/

theorem test_schedule_abc :
    (schedule abcBlock).getD 17 0 = 0x000f0000 ∧ (schedule abcBlock).getD 63 0 = 0x12b1edeb := by decide +kernel
theorem test_schedule_wraps :
    (schedule (List.replicate 64 0xff)).getD 16 0 = 0x203ffffc ∧
    (schedule (List.replicate 64 0xff)).getD 63 0 = 0x4bceaf09 := by decide +kernel
theorem test_compress_zero_state :
    compress (Vector.replicate 8 0) (List.replicate 64 0) =
      #v[0x7ca51614, 0x425c3ba8, 0xce54dd2f, 0xc2020ae7, 0xb6e574d1, 0x98136d0f, 0xae7e26cc, 0xbf0be7a6] := by
  decide +kernel
theorem test_pad_tail_55 :
    padTail (List.replicate 55 0x61) 0x1b8 =
      [List.replicate 55 0x61 ++ [0x80, 0, 0, 0, 0, 0, 0, 0x01, 0xb8]] := by decide +kernel
theorem test_pad_tail_56 :
    padTail (List.replicate 56 0x61) 0x1c0 =
      [List.replicate 56 0x61 ++ [0x80, 0, 0, 0, 0, 0, 0, 0], zeros 56 ++ [0, 0, 0, 0, 0, 0, 0x01, 0xc0]] := by
  decide +kernel
theorem test_pad_blocks : (pad (List.replicate 120 0x61)).length = 3 ∧ (pad (List.replicate 119 0x61)).length = 2 := by
  decide +kernel
theorem test_bit_length :
    bitLen (2 ^ 29) = 0x0000000100000000 ∧ bitLen (2 ^ 61) = 0 ∧ bitLen (2 ^ 61 + 1) = 8 ∧
    bitLen (2 ^ 64 - 1) = 0xfffffffffffffff8 := by decide +kernel

/-! ## One command at a time -/

/-- R140: NOP answers and changes nothing, with an error set. -/
theorem test_nop : response (exec .nop (failed .notDone doneAbc)) = some ⟨true, 0⟩ ∧
    coreAfter (exec .nop (failed .notDone doneAbc)) = some (failed .notDone doneAbc).core := by decide +kernel

/-- P4 line 8, P6 line 2: INIT leaves the reset state, and abandons a partial message. -/
theorem test_init_after_error : coreAfter (exec .init (failed .notDone doneEmpty)) = some CoreState.reset := by
  decide +kernel
theorem test_init_abandons : coreAfter (exec .init (absorbed 4)) = some CoreState.reset := by decide +kernel

/-- R84: the example of PUSH1, and P5 line 24, the byte that completes a block. -/
theorem test_push1 : coreAfter (exec (.push1 0x61) State.reset) = some (mk .absorb [0x61] 1 iv).core := by decide +kernel
theorem test_push1_completes_block :
    coreAfter (exec (.push1 0x61) (absorbed 63)) = some (mk .absorb [] 64
      #v[0xdf5bb81c, 0xe81e0626, 0xfb45a894, 0x4fd40f31, 0xb25e6816, 0xd6d499c1, 0xab904929, 0x00635e66]).core := by
  decide +kernel

/-- R85: B0 completes the block and B1 starts the next; a rejected PUSH2 absorbs neither byte. -/
theorem test_push2_straddles :
    (coreAfter (exec (.push2 0x61 0x62) (absorbed 63))).map (fun c => (c.buf, c.len, c.h[0])) =
      some ([0x62], 65, 0xdf5bb81c) := by decide +kernel
theorem test_push2_rejected : response (exec (.push2 0x61 0x62) doneAbc) = some ⟨false, 2⟩ ∧
    coreAfter (exec (.push2 0x61 0x62) doneAbc) = some (failed .sequence doneAbc).core := by decide +kernel

/-- R86: the example of PUSH3, and a BUF_LEN of 62. -/
theorem test_push3 : coreAfter (exec (.push3 0x61 0x62 0x63) State.reset) =
    some (mk .absorb [0x61, 0x62, 0x63] 3 iv).core := by decide +kernel
theorem test_push3_straddles :
    (coreAfter (exec (.push3 0x61 0x61 0x7a) (absorbed 62))).map (fun c => (c.buf, c.len, c.h[7])) =
      some ([0x7a], 65, 0x00635e66) := by decide +kernel

/-- D-PAD: the streaming straddle. -/
theorem test_push4_straddles :
    (coreAfter (exec (.push4 0x62 0x63 0x64 0x65) (absorbed 62))).map (fun c => (c.buf, c.bufLen, c.len)) =
      some ([0x64, 0x65], 2, 66) := by decide +kernel
/-- R178: the byte counter wraps. -/
theorem test_push4_wraps :
    (coreAfter (exec (.push4 0 1 2 3) (mk .absorb (zeros 50) (BitVec.ofNat 64 (2 ^ 64 - 2)) iv))).map (·.len) =
      some 2 := by decide +kernel

/-- P1 line 4, and P3 line 18 with its two tail blocks (L1-3). -/
theorem test_final_abc : coreAfter (exec .final (mk .absorb [0x61, 0x62, 0x63] 3 iv)) = some doneAbc.core := by
  decide +kernel
theorem test_final_two_blocks :
    coreAfter (exec .final (absorbed 56)) = some (mk .done [] 56
      #v[0xb35439a4, 0xac6f0948, 0xb6d6f9e3, 0xc6af0f5f, 0x590ce20f, 0x1bde7090, 0xef797068, 0x6ec6738a]).core := by
  decide +kernel

/-- R131: RDWORD 7 of "abc"; D-ERR: RDWORD 0 from reset. -/
theorem test_rdword : response (exec (.rdword 7) doneAbc) = some ⟨true, 0xf20015ad⟩ := by decide +kernel
theorem test_rdword_not_done : response (exec (.rdword 0) State.reset) = some ⟨false, 3⟩ ∧
    coreAfter (exec (.rdword 0) State.reset) = some (failed .notDone State.reset).core := by decide +kernel

/-- R132: the first and the last byte of the empty message's digest; a read in ABSORB. -/
theorem test_rdbyte : response (exec (.rdbyte 0) doneEmpty) = some ⟨true, 0xe3⟩ ∧
    response (exec (.rdbyte 31) doneEmpty) = some ⟨true, 0x55⟩ := by decide +kernel
theorem test_rdbyte_not_done : response (exec (.rdbyte 0) (absorbed 3)) = some ⟨false, 3⟩ := by decide +kernel

/-- D-CTL: STATUS after 63 bytes; STATUS in DONE with an error. -/
theorem test_rdstat_63 : response (exec .rdstat (absorbed 63)) = some ⟨true, 0x00003f00⟩ := by decide +kernel
theorem test_rdstat_error : response (exec .rdstat (failed .notDone doneEmpty)) = some ⟨true, 0x0000000f⟩ := by
  decide +kernel

/-- D-CTL and R144: the halves of LEN. -/
theorem test_rdlenlo : response (exec .rdlenlo doneAbc) = some ⟨true, 3⟩ := by decide +kernel
theorem test_rdlenhi : response (exec .rdlenhi doneAbc) = some ⟨true, 0⟩ ∧
    response (exec .rdlenhi (mk .absorb [] 0x0000000700000040 iv)) = some ⟨true, 7⟩ := by decide +kernel

/-- P4 line 2: an illegal word, with the first error kept. -/
theorem test_illegal : response (runCommand 0x7f12345678 (failed .notDone State.reset)) = some ⟨false, 1⟩ ∧
    coreAfter (runCommand 0x7f12345678 (failed .notDone State.reset)) = some (failed .notDone State.reset).core := by
  decide +kernel

/-- R181: reset during a command. -/
theorem test_reset_during : nextOf (step { failed .sequence doneAbc with inputs := [.resetDuring 0x3000000000] }) =
    some State.reset := by decide +kernel

/-- The machine runs the word it is presented as the first command after reset. -/
theorem test_step_runs_word : coreAfter (step (State.reset.withFetchWord 40 0x2161620000)) =
    some (mk .absorb [0x61, 0x62] 2 iv).core := by decide +kernel

/-! ## Assembler (30_encoding.md R72, R73) -/

theorem test_asm_hash : assemble ['H', 'A', 'S', 'H', ' ', '"', 'a', 'b', 'c', '"'] =
    .ok [0x0100000000, 0x2261626300, 0x3000000000] := by decide +kernel
theorem test_asm_case_and_comment :
    assemble ['r', 'd', 'b', 'y', 't', 'e', ' ', '0', 'x', '1', 'F', ' ', ';', ' ', 'x'] = .ok [0x410000001f] := by
  decide +kernel
theorem test_asm_literal : assemble ['P', 'u', 's', 'h', '1', ' ', '\'', 'a', '\''] = .ok [0x2061000000] := by
  decide +kernel
theorem test_asm_pushb :
    assemble ['P', 'U', 'S', 'H', 'B', ' ', '1', ',', '2', ',', '3', ',', '4', ',', '5'] =
      .ok [0x2301020304, 0x2005000000] := by decide +kernel
theorem test_asm_word :
    assemble ['.', 'w', 'o', 'r', 'd', ' ', '7', 'f', ':', '1', '2', '3', '4', '5', '6', '7', '8'] =
      .ok [0x7f12345678] := by decide +kernel
/-- The model's choice (log entry 12): lines without a command give none. -/
theorem test_asm_empty_lines :
    assemble ['\n', ';', ' ', 'N', 'O', 'P', '\n', 'N', 'O', 'P', '\n'] = .ok [0x0000000000] := by decide +kernel
/-- R72: "An index operand is a decimal or hexadecimal number", so no character literal. -/
theorem test_asm_index_literal :
    assemble ['R', 'D', 'B', 'Y', 'T', 'E', ' ', '\'', '\t', '\''] = .error .badOperand := by decide +kernel
theorem test_asm_range : assemble ['R', 'D', 'W', 'O', 'R', 'D', ' ', '8'] = .error .operandRange := by decide +kernel
theorem test_asm_count : assemble ['P', 'U', 'S', 'H', '2', ' ', '1'] = .error .operandCount := by decide +kernel

/-! ## The clock-edge model -/

open Handshake in
/-- R180, R181: reset at an edge with a command in flight leaves no response. -/
theorem test_edge_reset :
    nextOf (edge ⟨doneAbc, some (0x3000000000, 4), none⟩ ⟨true, false, 0, 0⟩) = some ⟨State.reset, none, none⟩ := by
  decide +kernel

open Handshake in
/-- R184, 93 U8: a presented command that is changed before it is accepted is refused. -/
theorem test_edge_host_duty :
    nextOf (edge ⟨State.reset, some (0, 1), some 0x3000000000⟩ ⟨false, true, 0x01, 0⟩) = none := by decide +kernel

/-! ## Witnesses: inputs that meet every hypothesis of a statement, one for each clause, at the ends of its range -/

theorem witness_IgnoredArgBitsChangeNothing :
    decode 0x2061ffffff = .ok (.push1 0x61) ∧
    (0x2061ffffff : CommandWord) &&& (Instr.push1 0x61).usedBits = 0x2061000000 &&& (Instr.push1 0x61).usedBits ∧
    Instr.rdlenhi ∈ [Instr.nop, .init, .final, .rdstat, .rdlenlo, .rdlenhi] := by decide +kernel
theorem witness_UnlistedOpcodesAreIllegal :
    illegalOp ((0x0200000000 : CommandWord).extractLsb' 32 8) = true ∧
    illegalOp ((0xffffffffff : CommandWord).extractLsb' 32 8) = true ∧
    illegalOp ((0x0100000000 : CommandWord).extractLsb' 32 8) = false ∧
    illegalOp ((0x5200000000 : CommandWord).extractLsb' 32 8) = false := by decide
theorem witness_DecoderFollowsTheOpcodeMap :
    (0x00ffffffff : CommandWord).extractLsb' 32 8 = 0x00#8 ∧ (0x01deadbeef : CommandWord).extractLsb' 32 8 = 0x01#8 ∧
    (0x2061000000 : CommandWord).extractLsb' 32 8 = 0x20#8 ∧ (0x2161620000 : CommandWord).extractLsb' 32 8 = 0x21#8 ∧
    (0x2261626300 : CommandWord).extractLsb' 32 8 = 0x22#8 ∧ (0x2361626364 : CommandWord).extractLsb' 32 8 = 0x23#8 ∧
    (0x3000000000 : CommandWord).extractLsb' 32 8 = 0x30#8 ∧ (0x40fffffff8 : CommandWord).extractLsb' 32 8 = 0x40#8 ∧
    (0x410000003f : CommandWord).extractLsb' 32 8 = 0x41#8 ∧ (0x5000000000 : CommandWord).extractLsb' 32 8 = 0x50#8 ∧
    (0x5100000000 : CommandWord).extractLsb' 32 8 = 0x51#8 ∧ (0x5200000000 : CommandWord).extractLsb' 32 8 = 0x52#8 ∧
    (0x2400000000 : CommandWord).extractLsb' 32 8 ∉
      [0x00#8, 0x01#8, 0x20#8, 0x21#8, 0x22#8, 0x23#8, 0x30#8, 0x40#8, 0x41#8, 0x50#8, 0x51#8, 0x52#8] := by decide
theorem witness_PushCarriesNbBytesInOrder :
    (0x2061ffffff : CommandWord).extractLsb' 34 6 = 0b001000#6 ∧
    (0x2361626364 : CommandWord).extractLsb' 34 6 = 0b001000#6 := by decide
theorem witness_RotrRotatesEveryBit :
    (1 ≤ 1 ∧ 1 ≤ 31 ∧ 0 < 32) ∧ (1 ≤ 31 ∧ 31 ≤ 31 ∧ 31 < 32) := by decide
theorem witness_ScheduleStartsWithTheBlock : abcBlock.length = 64 ∧ 0 < 16 ∧ 15 < 16 := by decide
theorem witness_ScheduleFollowsTheRecurrence : (16 ≤ 16 ∧ 16 < 64) ∧ (16 ≤ 63 ∧ 63 < 64) := by decide
theorem witness_PushedWordIsTheScheduleWord :
    (0 < 16 ∧ (absorbed 0).core.phase = .absorb ∧ (absorbed 0).core.bufLen = 4 * 0 ∧ 0 < 15) ∧
    (14 < 16 ∧ (absorbed 56).core.phase = .absorb ∧ (absorbed 56).core.bufLen = 4 * 14 ∧ 14 < 15) ∧
    (15 < 16 ∧ (absorbed 60).core.phase = .absorb ∧ (absorbed 60).core.bufLen = 4 * 15 ∧ 15 = 15) ∧
    (zeros 60).length = 4 * 15 := by decide +kernel
theorem witness_CompressRunsSixtyFourRounds : (schedule abcBlock).length = 64 ∧ 0 < 64 ∧ 63 < 64 := by decide +kernel
theorem witness_RoundConstantsAreCubeRootFractions : 0 < 64 ∧ 63 < 64 := by decide
theorem witness_InitialHashIsSquareRootFractions : 0 < 8 ∧ 7 < 8 := by decide
theorem witness_OnlyWholeBlocksAndInitWriteH :
    (absorbed 63).Inv ∧ decode 0x0100000000 = .ok .init ∧ decode 0x2361626364 ≠ .ok .init ∧
    pushedBytes 0x2361626364 ≠ [] ∧ decode 0x3000000000 = .ok .final ∧ (absorbed 63).core.phase = .absorb ∧
    decode 0x5000000000 ≠ .ok .final ∧ pushedBytes 0x5000000000 = [] := by decide +kernel
theorem witness_PadTailLayout :
    (zeros 0).length ≤ 55 ∧ (zeros 55).length ≤ 55 ∧ (56 ≤ (zeros 56).length ∧ (zeros 56).length ≤ 63) ∧
    (56 ≤ (zeros 63).length ∧ (zeros 63).length ≤ 63) := by decide
theorem witness_LengthFieldIsBigEndianAtOffset56 : (zeros 0).length ≤ 63 ∧ (zeros 63).length ≤ 63 := by decide
theorem witness_PaddedMessageMeetsTheContract :
    0 < (zeros 64).length / 64 ∧ 1 < (zeros 128).length / 64 ∧ ((zeros 55).length + 1 + 0 + 8) % 64 = 0 ∧
    ((zeros 56).length + 1 + 63 + 8) % 64 = 0 := by decide
theorem witness_PaddedBlockCount :
    (zeros 0).length % 64 ≤ 55 ∧ (zeros 119).length % 64 ≤ 55 ∧ 56 ≤ (zeros 56).length % 64 ∧
    56 ≤ (zeros 127).length % 64 := by decide
theorem witness_LengthFieldIsTheBitLength :
    (absorbed 3).core.len = BitVec.ofNat 64 3 ∧
    (mk .absorb [] 1 iv).core.len = BitVec.ofNat 64 (2 ^ 64 + 1) := by decide +kernel
theorem witness_PushAppendsItsBytes :
    ((0x20 : Byte), Instr.push1 0x61, [(0x61 : Byte)]) ∈ [((0x20 : Byte), Instr.push1 0x61, [(0x61 : Byte)]),
      (0x21, .push2 0x61 0x62, [0x61, 0x62]), (0x22, .push3 0x61 0x62 0x63, [0x61, 0x62, 0x63]),
      (0x23, .push4 0x61 0x62 0x63 0x64, [0x61, 0x62, 0x63, 0x64])] ∧
    ((0x23 : Byte), Instr.push4 0x61 0x62 0x63 0x64, [(0x61 : Byte), 0x62, 0x63, 0x64]) ∈
      [((0x20 : Byte), Instr.push1 0x61, [(0x61 : Byte)]),
      (0x21, .push2 0x61 0x62, [0x61, 0x62]), (0x22, .push3 0x61 0x62 0x63, [0x61, 0x62, 0x63]),
      (0x23, .push4 0x61 0x62 0x63 0x64, [0x61, 0x62, 0x63, 0x64])] ∧
    doneAbc.core.phase = .done ∧ ((absorbed 0).core.phase = .absorb ∧ (absorbed 0).core.bufLen ≤ 63) ∧
    ((absorbed 63).core.phase = .absorb ∧ (absorbed 63).core.bufLen ≤ 63) := by decide +kernel
theorem witness_CounterWrapIsNoError :
    (Instr.push1 0).pushBytes ≠ [] ∧ (mk .absorb (zeros 63) (BitVec.ofNat 64 (2 ^ 64 - 1)) iv).core.phase = .absorb := by
  decide +kernel
theorem witness_MixedWidthViewsAgree : doneAbc.core.phase = .done := by decide
theorem witness_SplitOfPushesDoesNotMatter :
    (absorbed 62).core.phase = .absorb ∧ (∀ w ∈ [(0x2261626300 : CommandWord)], pushedBytes w ≠ []) ∧
    (∀ w ∈ [(0x2061000000 : CommandWord), 0x2162630000], pushedBytes w ≠ []) ∧
    [(0x2261626300 : CommandWord)].flatMap pushedBytes =
      [(0x2061000000 : CommandWord), 0x2162630000].flatMap pushedBytes :=
  ⟨by decide, List.forall_mem_singleton.2 (by decide),
    List.forall_mem_cons.2 ⟨by decide, List.forall_mem_singleton.2 (by decide)⟩, by decide +kernel⟩
theorem witness_FinalPadsAndFinishes :
    doneAbc.core.phase = .done ∧ (absorbed 55).core.phase = .absorb ∧ (absorbed 55).core.bufLen ≤ 55 ∧
    56 ≤ (absorbed 56).core.bufLen ∧ 56 ≤ (absorbed 63).core.bufLen := by decide +kernel
theorem witness_CoreHoldsItsMessage :
    (absorbed 3).core.Holds [0x61, 0x61, 0x61] ∧ (Instr.push1 0x61).pushBytes ≠ [] ∧ State.reset.core.Holds [] := by
  decide +kernel
/-- The clauses on the other words: NOP, a rejected read and an illegal word in ABSORB. -/
theorem witness_CoreHoldsItsMessage_kept :
    (absorbed 3).core.Holds [0x61, 0x61, 0x61] ∧ decode 0x0000000000 ≠ .ok .init ∧ decode 0x0000000000 ≠ .ok .final ∧
    decode 0x4000000000 ≠ .ok .init ∧ decode 0x4000000000 ≠ .ok .final ∧ decode 0x7f12345678 ≠ .ok .init ∧
    decode 0x7f12345678 ≠ .ok .final := by decide +kernel
/-- The clauses on DONE: the state after FINAL of the empty message (L1-1), with a PUSH and a FINAL that are rejected. -/
theorem witness_CoreHoldsItsMessage_digested :
    doneEmpty.core.Digested [] ∧ decode 0x2061000000 ≠ .ok .init ∧ decode 0x3000000000 ≠ .ok .init := by decide +kernel
theorem witness_PushesThenFinalHashTheMessage :
    State.reset.core.phase = .absorb ∧ State.reset.core.bufLen = 0 ∧ State.reset.core.len = 0 ∧ State.reset.core.h = iv ∧
    (∀ w ∈ [(0x2261626300 : CommandWord)], pushedBytes w ≠ []) ∧
    [(0x2261626300 : CommandWord)].flatMap pushedBytes = [0x61, 0x62, 0x63] ∧ decode 0x3000000000 = .ok .final :=
  ⟨rfl, rfl, rfl, rfl, List.forall_mem_singleton.2 (by decide), by decide +kernel, by decide⟩
theorem witness_CommandPortComputesHash :
    (∀ w ∈ [(0x2261626300 : CommandWord)], pushedBytes w ≠ []) ∧
    [(0x2261626300 : CommandWord)].flatMap pushedBytes = [0x61, 0x62, 0x63] :=
  ⟨List.forall_mem_singleton.2 (by decide), by decide +kernel⟩
theorem witness_DigestIsThirtyTwoBigEndianBytes : 0 < 32 ∧ 31 < 32 := by decide
theorem witness_RdwordReadsDigestWord : State.reset.core.phase = .absorb ∧ doneAbc.core.phase = .done := by decide
theorem witness_RdbyteReadsDigestByte : (absorbed 3).core.phase = .absorb ∧ doneEmpty.core.phase = .done := by decide
theorem witness_ChainingValueStaysHidden :
    (absorbed 3).core.phase = .absorb ∧
    ((∀ k, decode 0x5000000000 ≠ .ok (.rdword k)) ∧ ∀ i, decode 0x5000000000 ≠ .ok (.rdbyte i)) ∧
    ((∃ k, Instr.rdword 7 = .rdword k) ∧ ∃ n, Instr.rdbyte 31 = .rdbyte n) :=
  ⟨by decide, ⟨by decide, by decide⟩, ⟨_, rfl⟩, ⟨_, rfl⟩⟩
theorem witness_RdstatReadsEveryStatusField :
    (absorbed 0).core.bufLen ≤ 63 ∧ (absorbed 63).core.bufLen ≤ 63 ∧ (failed .notDone doneAbc).core.bufLen ≤ 63 := by
  decide +kernel
theorem witness_ReadsHaveNoSideEffect :
    (∃ k, Instr.rdword 0 = .rdword k) ∧ (∃ n, Instr.rdbyte 31 = .rdbyte n) ∧ Instr.rdlenhi = .rdlenhi ∧
    (response (exec (.rdword 0) doneAbc)).map (·.ok) = some true ∧
    (response (exec (.rdword 0) State.reset)).map (·.ok) = some false :=
  ⟨⟨_, rfl⟩, ⟨_, rfl⟩, rfl, by decide +kernel, by decide +kernel⟩
theorem witness_RejectionChangesOnlyTheErrorBits :
    runCommand 0x3000000000 doneAbc = .next { failed .sequence doneAbc with rsp := some ⟨false, 2⟩ } := rfl
theorem witness_ErrorsStayUntilInitOrReset :
    (failed .illegal State.reset).core.err = true ∧ (failed .notDone doneAbc).core.err = true := by decide
theorem witness_StepRunsThePresentedEvent :
    State.reset.inputs = [] ∧
    ({ State.reset with inputs := [.command 0x2261626300] } : State).inputs = .command 0x2261626300 :: [] ∧
    decode 0x2261626300 = .ok (.push3 0x61 0x62 0x63) ∧
    ({ State.reset with inputs := [.command 0x7f12345678, .reset] } : State).inputs =
      .command 0x7f12345678 :: [.reset] ∧
    decode 0x7f12345678 = .error (.illegal 0x7f) ∧
    ({ doneAbc with inputs := [.reset] } : State).inputs = .reset :: [] ∧
    ({ doneAbc with inputs := [.resetDuring 0x3000000000] } : State).inputs = .resetDuring 0x3000000000 :: [] := by
  decide
theorem witness_QueueRunsLeftToRight :
    ({ State.reset with inputs := [.command 0x2261626300, .command 0x3000000000, .reset] } : State).inputs =
      [(0x2261626300 : CommandWord), 0x3000000000].map .command ++ [.reset] := by decide
theorem witness_ResetStateMeetsTheInvariant :
    exec .init doneAbc = .next { State.reset with rsp := some ⟨true, 0⟩ } := rfl
theorem witness_StepKeepsTheInvariant :
    ({ doneAbc with inputs := [.command 0x0100000000] } : State).Inv ∧
    step { doneAbc with inputs := [.command 0x0100000000] } = .next { State.reset with rsp := some ⟨true, 0⟩ } :=
  ⟨by decide, rfl⟩

open Handshake in
/-- A NOP in flight with two edges to go, and an idle host. -/
def flying : PortState := ⟨State.reset, some (0, 2), none⟩

open Handshake in
/-- An edge at which the host presents nothing. -/
def idle : Pins := ⟨false, false, 0, 0⟩

open Handshake in
theorem witness_ClockedRunsAreTransactionRuns :
    edges [idle, idle, idle] flying = .next ⟨{ State.reset with rsp := some ⟨true, 0⟩ }, none, none⟩ := rfl

open Handshake in
theorem witness_AcceptedCommandCompletes :
    flying.inflight = some (0, 2) ∧ [idle, idle, idle].length = 2 + 1 ∧ (∀ x ∈ [idle, idle, idle], x.rst = false) ∧
    edges [idle, idle, idle] flying = .next ⟨{ State.reset with rsp := some ⟨true, 0⟩ }, none, none⟩ :=
  ⟨rfl, rfl, by decide, rfl⟩

open Handshake in
theorem witness_PortFollowsTheHandshake :
    breaksHandshake ⟨State.reset, some (0, 1), some 0x3000000000⟩ ⟨false, true, 0x01, 0⟩ = true ∧
    (breaksHandshake ⟨doneAbc, none, none⟩ ⟨true, false, 0, 0⟩ = false ∧ (⟨true, false, 0, 0⟩ : Pins).rst = true) ∧
    (breaksHandshake ⟨doneAbc, none, none⟩ ⟨false, true, 0x30, 0⟩ = false ∧
      cmdReady ⟨doneAbc, none, none⟩ false = true) ∧
    (breaksHandshake flying ⟨false, true, 0x30, 0⟩ = false ∧ cmdReady flying false = false ∧
      flying.inflight = some (0, 1 + 1)) ∧
    (breaksHandshake ⟨State.reset, some (0, 0), none⟩ ⟨false, true, 0x30, 0⟩ = false ∧
      (⟨State.reset, some (0, 0), none⟩ : PortState).inflight = some (0, 0)) ∧
    (breaksHandshake ⟨doneAbc, none, none⟩ idle = false ∧ idle.cmdValid = false) := by decide

theorem witness_CoresShareNoState :
    ([State.reset, doneAbc] : Platform)[0]? = some State.reset ∧ ([State.reset, doneAbc] : Platform)[1]? = some doneAbc ∧
    0 ≠ 1 := by decide
theorem witness_AssemblerAcceptsTheForms :
    assembleCommand ⟨['P', 'U', 'S', 'H', '1'], [255]⟩ = .ok (.push1 255) ∧
    assembleCommand ⟨['R', 'D', 'B', 'Y', 'T', 'E'], [31]⟩ = .ok (.rdbyte 31) := by decide
theorem witness_PushSequencePushesItsBytes :
    Instr.push1 5 ∈ pushSequence [1, 2, 3, 4, 5] ∧ Instr.push4 1 2 3 4 ∈ (pushSequence [1, 2, 3, 4, 5]).take (5 / 4) := by
  decide

end Sys2Proof.Tests
end

section
/-! SUPPORT. Rotation: the model's `rotr` and the rotation of bit vectors (00_scope.md R9). -/

namespace Sys2Proof.Machine

theorem rotr_eq_rotateRight {n : Nat} (h : n < 32) (x : Word) : rotr x n = x.rotateRight n := by
  rw [BitVec.rotateRight_def, Nat.mod_eq_of_lt h, rotr]

/-- Settles O8: the low `32 - n` bits come from `x >>> n`, the high `n` bits wrap around. -/
theorem rotrRotatesEveryBit : Obligations.RotrRotatesEveryBit := by
  intro x n i _ hn hi
  rw [rotr_eq_rotateRight (by omega), BitVec.getLsbD_rotateRight, Nat.mod_eq_of_lt (show n < 32 by omega)]
  by_cases h : i < 32 - n
  · have hmod : (i + n) % 32 = n + i := by omega
    simp [h, hmod]
  · have hmod : (i + n) % 32 = i - (32 - n) := by omega
    simp [h, hi, hmod]

end Sys2Proof.Machine
end

section
/-! SUPPORT. Every command word answers, and neither the response before it nor the commands to come change its answer
(00_scope.md R12). -/

namespace Sys2Proof.Machine

/-- A command gives one core and one response, whatever is held on the port beside the core. -/
theorem exec_answers (i : Instr) (core : CoreState) :
    ∃ (core' : CoreState) (r : Response), ∀ rsp inputs,
      exec i ⟨core, rsp, inputs⟩ = .next ⟨core', some r, inputs⟩ := by
  simp only [exec_eq]
  by_cases ha : acceptedIn i core.phase = true
  · simp only [if_pos ha]
    cases i <;> exact ⟨_, _, fun _ _ => rfl⟩
  · simp only [if_neg ha]
    obtain hp | hp := core.phase.absorb_or_done <;> simp only [hp, reduceCtorEq, if_true, if_false]
    · exact ⟨recordError .notDone core, _, fun _ _ => rfl⟩
    · exact ⟨recordError .sequence core, _, fun _ _ => rfl⟩

/-- Settles O47: a word that decodes answers as its command does, any other word as the ILLEGAL rejection does. -/
theorem stepIsAFunctionOfCoreAndCommand : Obligations.StepIsAFunctionOfCoreAndCommand := by
  intro core c
  cases hd : decode c with
  | ok i =>
    obtain ⟨core', r, h⟩ := exec_answers i core
    exact ⟨core', r, fun rsp inputs => (runCommand_ok hd _).trans (h rsp inputs)⟩
  | error e => exact ⟨recordError .illegal core, _, fun _ _ => runCommand_error hd _⟩

theorem runCommand_congr {s s' : State} (hcore : s.core = s'.core) (hin : s.inputs = s'.inputs) (c : CommandWord) :
    runCommand c s = runCommand c s' := by
  obtain ⟨core', r, h⟩ := stepIsAFunctionOfCoreAndCommand s.core c
  calc runCommand c s = .next ⟨core', some r, s.inputs⟩ := h s.rsp s.inputs
    _ = .next ⟨core', some r, s'.inputs⟩ := by rw [hin]
    _ = runCommand c ⟨s.core, s'.rsp, s'.inputs⟩ := (h _ _).symm
    _ = runCommand c s' := by rw [hcore]

end Sys2Proof.Machine
end

section
/-! SUPPORT. The clock edges simulate whole transactions: the simulation relation, one edge, and a run of edges
(70_reset_and_hazards.md R180, R181, R185, R187). -/

namespace Sys2Proof.Machine

theorem applyEvents_append {es : List PortEvent} {s t : State} (h : applyEvents es s = .next t) (es' : List PortEvent) :
    applyEvents (es ++ es') s = applyEvents es' t := by
  induction es generalizing s with
  | nil =>
    cases h
    rfl
  | cons e es ih =>
    simp only [applyEvents, List.cons_append] at h ⊢
    cases he : applyEvent e s with
    | next s' =>
      simp only [he] at h ⊢
      exact ih h
    | fault f => simp [he] at h
    | refused r => simp [he] at h

theorem applyEvents_singleton {e : PortEvent} {s t : State} (h : applyEvent e s = .next t) :
    applyEvents [e] s = .next t := by
  simp [applyEvents, h]

namespace Handshake

/-- Everything an edge that is not refused can do, with the transaction it completes: reset, one more cycle of the
command in flight, its completion, acceptance, or nothing. -/
theorem edge_cases {p q : PortState} {x : Pins} (h : edge p x = .next q) :
    (q = keepWaiting x (resetEdge p) ∧ ∃ e, transaction p x = [e] ∧ ∀ s, applyEvent e s = .next (resetMachine s)) ∨
    (∃ c n, p.inflight = some (c, n + 1) ∧ q = keepWaiting x { p with inflight := some (c, n) } ∧
      transaction p x = []) ∨
    (∃ c s, p.inflight = some (c, 0) ∧ runCommand c p.machine = .next s ∧
      q = keepWaiting x { p with machine := s, inflight := none } ∧ transaction p x = [.command c]) ∨
    (∃ c, p.inflight = none ∧ q = acceptEdge c p ∧ transaction p x = []) ∨
    (p.inflight = none ∧ q = keepWaiting x p ∧ transaction p x = []) := by
  unfold edge at h
  unfold transaction
  split at h
  · cases h
  cases hrst : x.rst with
  | true =>
    rw [if_pos hrst] at h
    cases h
    left
    cases p.inflight <;> exact ⟨rfl, _, rfl, fun _ => rfl⟩
  | false =>
    rw [if_neg (by simp [hrst])] at h
    right
    rcases hf : p.inflight with _ | ⟨c, _ | n⟩ <;> simp only [hf] at h
    · cases hx : x.presented with
      | none =>
        simp only [hx] at h
        cases h
        exact .inr (.inr (.inr ⟨rfl, rfl, rfl⟩))
      | some c =>
        simp only [hx] at h
        cases h
        exact .inr (.inr (.inl ⟨c, rfl, rfl, rfl⟩))
    · cases hr : runCommand c p.machine with
      | next s =>
        simp only [hr] at h
        cases h
        exact .inr (.inl ⟨c, s, rfl, hr, rfl, rfl⟩)
      | fault f => simp [hr] at h
      | refused r => simp [hr] at h
    · cases h
      exact .inl ⟨c, n, rfl, rfl, rfl⟩

/-- The simulation relation: the machine `s` of whole transactions stands where the port `p` stands. While a command is
in flight the port has already let go of the response before it (R186), so the responses agree only between commands. -/
structure Tracks (s : State) (p : PortState) : Prop where
  core : s.core = p.machine.core
  inputs : s.inputs = p.machine.inputs
  rsp : p.inflight = none → s.rsp = p.machine.rsp

theorem Tracks.refl (p : PortState) : Tracks p.machine p := ⟨rfl, rfl, fun _ => rfl⟩

/-- One edge is matched by the transaction it completes, if any. -/
theorem Tracks.edge {s : State} {p q : PortState} {x : Pins} (hs : Tracks s p) (h : edge p x = .next q) :
    ∃ t, applyEvents (transaction p x) s = .next t ∧ Tracks t q := by
  obtain ⟨hcore, hin, hrsp⟩ := hs
  obtain ⟨rfl, e, htr, he⟩ | ⟨c, n, -, rfl, htr⟩ | ⟨c, m, -, hrun, rfl, htr⟩ | ⟨c, -, rfl, htr⟩ | ⟨-, rfl, htr⟩ :=
    edge_cases h <;> rw [htr]
  · exact ⟨resetMachine s, applyEvents_singleton (he s), rfl, hin, fun _ => rfl⟩
  · exact ⟨s, rfl, hcore, hin, nofun⟩
  · exact ⟨m, applyEvents_singleton ((runCommand_congr hcore hin c).trans hrun), rfl, rfl, fun _ => rfl⟩
  · exact ⟨s, rfl, hcore, hin, nofun⟩
  · exact ⟨s, rfl, hcore, hin, hrsp⟩

/-- A run of edges is matched by the transactions it completes. -/
theorem Tracks.edges {xs : List Pins} {s : State} {p q : PortState} (hs : Tracks s p) (h : edges xs p = .next q) :
    ∃ t, applyEvents (transactions xs p) s = .next t ∧ Tracks t q := by
  induction xs generalizing s p with
  | nil =>
    cases h
    exact ⟨s, rfl, hs⟩
  | cons x xs ih =>
    simp only [Handshake.edges, transactions] at h ⊢
    cases he : Handshake.edge p x with
    | next p' =>
      simp only [he] at h ⊢
      obtain ⟨s', hs', htr⟩ := hs.edge he
      rw [applyEvents_append hs']
      exact ih htr h
    | fault f => simp [he] at h
    | refused r => simp [he] at h

/-- Settles O54: a port state tracks itself, and every run of edges keeps the simulation. -/
theorem clockedRunsAreTransactionRuns : Obligations.ClockedRunsAreTransactionRuns := by
  intro xs p q h
  obtain ⟨t, ht, hcore, hin, hrsp⟩ := (Tracks.refl p).edges h
  exact ⟨t, ht, hcore, hin, hrsp⟩

end Handshake

end Sys2Proof.Machine
end

section
/-! SUPPORT. The decoder reads back what the encoder writes (30_encoding.md R71, R72). -/

namespace Sys2Proof

open Sys2Proof.Machine

theorem decode_encode (i : Instr) : decode (encode i) = .ok i := by
  cases i with
  | push1 | push2 | push3 | push4 => simp [encode, Instr.opcode, Instr.arg]
  | rdword k =>
    have hk : fieldKidx (k.setWidth 32) = k := by revert k; decide
    simp [encode, Instr.opcode, Instr.arg, hk]
  | rdbyte n =>
    have hn : fieldBidx (n.setWidth 32) = n := by revert n; decide
    simp [encode, Instr.opcode, Instr.arg, hn]
  | nop | init | final | rdstat | rdlenlo | rdlenhi => rfl

end Sys2Proof
end

section
/-! SUPPORT. The core holds its message: absorbing bytes appends them to it, and finishing it gives its digest state
(10_state.md R35, 41_padder.md R83, R88, R92). -/

namespace Sys2Proof.Machine

theorem bitLen_eq_mul (n : Nat) : bitLen n = BitVec.ofNat 64 n * 8 := BitVec.ofNat_mul ..

/-- The full blocks of a message stay where they are when it grows. -/
theorem map_slice_append (m bs : List Byte) :
    ((List.range (m.length / 64)).map fun q => slice (m ++ bs) (64 * q) (64 * q + 64)) = fullBlocks m := by
  refine List.map_congr_left fun q hq => ?_
  have hlt := List.mem_range.1 hq
  rw [slice, slice, List.take_append_of_le_length (by omega)]

/-- A byte that leaves room in the window lengthens the partial window. -/
theorem windows_append_of_room {m : List Byte} (b : Byte) (h : m.length % 64 + 1 ≠ 64) :
    partialWindow (m ++ [b]) = partialWindow m ++ [b] ∧ fullBlocks (m ++ [b]) = fullBlocks m := by
  have hq : (m ++ [b]).length / 64 = m.length / 64 := by simp; omega
  constructor
  · rw [partialWindow_eq_drop, partialWindow_eq_drop, hq, List.drop_append_of_le_length (by omega)]
  · rw [fullBlocks, hq, map_slice_append]

/-- A byte that fills the window turns the partial window into one more full block. -/
theorem windows_append_of_full {m : List Byte} (b : Byte) (h : m.length % 64 + 1 = 64) :
    partialWindow (m ++ [b]) = [] ∧ fullBlocks (m ++ [b]) = fullBlocks m ++ [partialWindow m ++ [b]] := by
  have hlen : (m ++ [b]).length = 64 * (m.length / 64) + 64 := by simp; omega
  have hq : (m ++ [b]).length / 64 = m.length / 64 + 1 := by omega
  constructor
  · rw [partialWindow_eq_drop, List.drop_eq_nil_iff]
    omega
  · rw [fullBlocks, hq, List.range_succ, List.map_append, map_slice_append, List.map_singleton, slice, ← hlen,
      List.take_length, List.drop_append_of_le_length (by omega), partialWindow_eq_drop]

theorem CoreState.reset_holds : CoreState.reset.Holds [] := ⟨rfl, rfl, rfl, rfl⟩

theorem CoreState.Holds.absorbByte {c : CoreState} {m : List Byte} (hc : c.Holds m) (b : Byte) :
    (absorbByte c b).Holds (m ++ [b]) := by
  obtain ⟨hphase, hlen, hbuf, hh⟩ := hc
  have hroom : c.buf.length = m.length % 64 := by rw [hbuf, partialWindow_length]
  refine ⟨by simp [hphase], by simp [hlen, BitVec.ofNat_add], ?_⟩
  obtain ⟨hne, heq⟩ | ⟨hfull, heq⟩ := absorbByte_cases c b
  · obtain ⟨hp, hf⟩ := windows_append_of_room b (hroom ▸ hne)
    simp [heq, hp, hf, hbuf, hh]
  · obtain ⟨hp, hf⟩ := windows_append_of_full b (hroom ▸ hfull)
    simp [heq, hp, hf, hbuf, hh]

theorem CoreState.Holds.absorbBytes {c : CoreState} {m : List Byte} (hc : c.Holds m) (bs : List Byte) :
    (absorbBytes bs c).Holds (m ++ bs) := by
  induction bs generalizing c m with
  | nil => simpa using hc
  | cons b bs ih => simpa using ih (hc.absorbByte b)

theorem CoreState.Holds.finalize {c : CoreState} {m : List Byte} (hc : c.Holds m) : (finalize c).Digested m := by
  obtain ⟨-, hlen, hbuf, hh⟩ := hc
  refine ⟨finalize_phase c, finalize_buf c, ?_⟩
  have hl : lengthField c = bitLen m.length := by rw [lengthField, hlen, bitLen_eq_mul]
  rw [finalize_h, hl, hbuf, hh, pad, List.foldl_append]

end Sys2Proof.Machine
end

section
/-! SUPPORT. The digest as its eight words (44_serializer.md R130, R131). -/

namespace Sys2Proof.Machine

theorem serialize_length (h : Vector Word 8) : (serialize h).length = 32 := by
  simp [serialize, List.length_flatMap]

/-- The words that RDWORD 0 to 7 read are `H`. -/
theorem digestWords_eq (c : CoreState) :
    (List.range 8).map (fun k => digestWord (BitVec.ofNat 3 k) c) = c.h.toList := by
  apply List.ext_getElem
  · simp
  · intro k hk _
    have hk8 : k < 8 := by simpa using hk
    simp [digestWord, Nat.mod_eq_of_lt hk8]

end Sys2Proof.Machine
end

section
/-! SUPPORT. Runs of command words that are all accepted (20_memory.md R53, 30_encoding.md R70). -/

namespace Sys2Proof.Machine

/-- The words `ws`, run from `s`, are all accepted, end in `t` and give the responses `rs`. -/
structure AcceptedRun (ws : List CommandWord) (s t : State) (rs : List Response) : Prop where
  run : runCommands ws s = .next (t, rs)
  length : rs.length = ws.length
  ok : ∀ r ∈ rs, r.ok = true

namespace AcceptedRun

theorem nil (s : State) : AcceptedRun [] s s [] := ⟨rfl, rfl, by simp⟩

theorem append {ws vs : List CommandWord} {s t u : State} {rs us : List Response}
    (h : AcceptedRun ws s t rs) (h' : AcceptedRun vs t u us) : AcceptedRun (ws ++ vs) s u (rs ++ us) where
  run := runCommands_append h.run h'.run
  length := by simp [h.length, h'.length]
  ok r hr := (List.mem_append.1 hr).elim (h.ok r) (h'.ok r)

theorem of_accept {w : CommandWord} {c : CoreState} {d : Word} {s : State} (h : runCommand w s = accept c d s) :
    ∃ t, AcceptedRun [w] s t [⟨true, d⟩] ∧ t.core = c :=
  ⟨{ s with core := c, rsp := some ⟨true, d⟩ }, ⟨by simp [runCommands, h, accept], rfl, by simp⟩, rfl⟩

/-- PUSH words absorb their bytes in order. -/
theorem of_pushes {ws : List CommandWord} (hws : ∀ w ∈ ws, pushedBytes w ≠ []) {s : State}
    (hs : s.core.phase = .absorb) :
    ∃ t rs, AcceptedRun ws s t rs ∧ t.core = absorbBytes (ws.flatMap pushedBytes) s.core := by
  induction ws generalizing s with
  | nil => exact ⟨s, [], nil s, rfl⟩
  | cons w ws ih =>
    obtain ⟨hw, hws⟩ := List.forall_mem_cons.1 hws
    obtain ⟨u, hrun, hu⟩ := of_accept ((runCommand_push hw s).trans (pushCommand_absorb hs))
    obtain ⟨t, rs, hrest, ht⟩ := ih hws (s := u) (by simpa [hu] using hs)
    exact ⟨t, _, hrun.append hrest, by rw [ht, hu, List.flatMap_cons, absorbBytes_append]⟩

/-- RDWORD words in phase DONE read the digest and leave the core. -/
theorem of_rdwords (ks : List (BitVec 3)) {s : State} (hs : s.core.phase = .done) :
    ∃ t, AcceptedRun (ks.map fun k => encode (.rdword k)) s t (ks.map fun k => ⟨true, digestWord k s.core⟩) := by
  induction ks generalizing s with
  | nil => exact ⟨s, nil s⟩
  | cons k ks ih =>
    obtain ⟨u, hrun, hu⟩ := of_accept ((runCommand_ok (decode_encode (.rdword k)) s).trans (readDigest_done hs))
    obtain ⟨t, hrest⟩ := ih (s := u) (hu ▸ hs)
    exact ⟨t, hrun.append (hu ▸ hrest)⟩

end AcceptedRun

/-- Settles O32: the run is INIT, the PUSHes, FINAL and the reads, one accepted run after the other; the message that
INIT starts is `m` before FINAL, and the reads give the words of its digest state. -/
theorem commandPortComputesHash : Obligations.CommandPortComputesHash := by
  rintro s ws m hws rfl
  obtain ⟨s₁, hinit, h₁⟩ := AcceptedRun.of_accept (c := CoreState.reset) (runCommand_ok (decode_encode .init) s)
  obtain ⟨s₂, rs, hpush, h₂⟩ := AcceptedRun.of_pushes hws (s := s₁) (by rw [h₁]; rfl)
  have hholds : s₂.core.Holds (ws.flatMap pushedBytes) := by
    rw [h₂, h₁]
    exact CoreState.reset_holds.absorbBytes _
  have habsorb : s₂.core.phase = .absorb := hholds.1
  obtain ⟨s₃, hfinal, h₃⟩ :=
    AcceptedRun.of_accept ((runCommand_ok (decode_encode .final) s₂).trans (execFinal_absorb habsorb))
  obtain ⟨hdone, -, hdigest⟩ : s₃.core.Digested (ws.flatMap pushedBytes) := h₃ ▸ hholds.finalize
  obtain ⟨t, hread⟩ := AcceptedRun.of_rdwords ((List.range 8).map (BitVec.ofNat 3)) hdone
  have hrun := ((hinit.append hpush).append hfinal).append hread
  refine ⟨t, _, ?_, ?_, hrun.ok, ?_, serialize_length _⟩
  · simpa [readDigestSequence, Function.comp_def] using hrun.run
  · simpa using hrun.length
  · rw [List.drop_left' (by simp [hpush.length]), hashBytes, ← hdigest, serialize, ← digestWords_eq]
    simp only [List.map_map, List.flatMap_map, Function.comp_def]

end Sys2Proof.Machine
end

section
/-! SUPPORT. What a command word does to the message that the core holds or has digested (10_state.md R35). -/

namespace Sys2Proof.Machine

theorem runCommand_init {c : CommandWord} (h : decode c = .ok .init) (s : State) :
    runCommand c s = accept CoreState.reset 0 s := runCommand_ok h s

theorem CoreState.Holds.recordError {c : CoreState} {m : List Byte} (hc : c.Holds m) (e : ErrCode) :
    (recordError e c).Holds m := hc

theorem CoreState.Digested.recordError {c : CoreState} {m : List Byte} (hc : c.Digested m) (e : ErrCode) :
    (recordError e c).Digested m := hc

/-- A word that neither starts nor finishes a message appends the bytes it pushes, which may be none. -/
theorem CoreState.Holds.runCommand {s : State} {m : List Byte} (hs : s.core.Holds m) {w : CommandWord}
    (hinit : decode w ≠ .ok .init) (hfinal : decode w ≠ .ok .final) :
    ∃ t, runCommand w s = .next t ∧ t.core.Holds (m ++ pushedBytes w) := by
  have hnotDone : s.core.phase ≠ .done := by simp [hs.1]
  obtain ⟨t, ht, hcases⟩ := runCommand_cases w s
  refine ⟨t, ht, ?_⟩
  obtain ⟨e, -, hcore, -, -, -, hpush⟩ | ⟨hd, -⟩ | ⟨hd, -⟩ | ⟨-, -, hcore, -⟩ | ⟨hcore, hpush, -⟩ := hcases
  · have hnil : pushedBytes w = [] := not_not.1 fun h => hnotDone (hpush h)
    simpa only [hcore, hnil, List.append_nil] using hs.recordError e
  · exact absurd hd hinit
  · exact absurd hd hfinal
  · exact hcore ▸ hs.absorbBytes _
  · simpa only [hcore, hpush, List.append_nil] using hs

/-- A digest is kept until INIT. -/
theorem CoreState.Digested.runCommand {s : State} {m : List Byte} (hs : s.core.Digested m) {w : CommandWord}
    (hinit : decode w ≠ .ok .init) : ∃ t, runCommand w s = .next t ∧ t.core.Digested m := by
  have hnotAbsorb : s.core.phase ≠ .absorb := by simp [hs.1]
  obtain ⟨t, ht, hcases⟩ := runCommand_cases w s
  refine ⟨t, ht, ?_⟩
  obtain ⟨e, -, hcore, -⟩ | ⟨hd, -⟩ | ⟨-, hp, -⟩ | ⟨-, hp, -⟩ | ⟨hcore, -⟩ := hcases
  · exact hcore ▸ hs.recordError e
  · exact absurd hd hinit
  · exact absurd hp hnotAbsorb
  · exact absurd hp hnotAbsorb
  · exact hcore ▸ hs

/-- The counter is the length modulo `2^64`, a multiple of 64, so it gives the place in the window (10_state.md R35). -/
theorem CoreState.Holds.bufLen_eq {c : CoreState} {m : List Byte} (hc : c.Holds m) :
    c.bufLen = c.len.toNat % 64 := by
  obtain ⟨-, hlen, hbuf, -⟩ := hc
  rw [CoreState.bufLen_eq, hbuf, hlen, partialWindow_length, BitVec.toNat_ofNat, Nat.mod_mod_of_dvd _ (by decide)]

theorem CoreState.Holds.buf_eq_drop {c : CoreState} {m : List Byte} (hc : c.Holds m) :
    c.buf = m.drop (m.length - c.bufLen) := by
  obtain ⟨-, -, hbuf, -⟩ := hc
  rw [CoreState.bufLen_eq, hbuf, partialWindow_length, partialWindow, slice, List.take_length]

/-- Settles O30: each clause is what reset, INIT, absorbing, finishing or another word does to the held message. -/
theorem coreHoldsItsMessage : Obligations.CoreHoldsItsMessage := by
  refine ⟨CoreState.reset_holds, fun s => ⟨_, rfl, CoreState.reset_holds⟩, ?push, ?final,
    fun _ _ _ hs => hs.runCommand, fun _ _ _ hs => hs.runCommand,
    fun _ _ hc => ⟨hc.bufLen_eq, hc.buf_eq_drop⟩, fun _ _ ⟨_, hbuf, _⟩ => by simp [hbuf]⟩
  case push =>
    intro s m i hs hi
    exact ⟨_, (congrFun (exec_push hi) s).trans (pushCommand_absorb hs.1), hs.absorbBytes _⟩
  case final =>
    intro s m hs
    exact ⟨_, execFinal_absorb hs.1, hs.finalize⟩

end Sys2Proof.Machine
end

section
/-! SUPPORT. The invariant of BUF_LEN, LEN, PHASE, ERR and ERR_CODE: every operation on the core keeps it, and so does
every step (10_state.md R23, R26, R35). -/

namespace Sys2Proof.Machine

namespace CoreState

theorem reset_inv : CoreState.reset.Inv := by decide

theorem Inv.recordError {c : CoreState} (hc : c.Inv) {e : ErrCode} (he : e ≠ .noError) : (recordError e c).Inv := by
  obtain ⟨hle, habsorb, hdone, herr⟩ := hc
  refine ⟨hle, habsorb, hdone, ?_⟩
  cases hb : c.err with
  | false => simpa [hb] using he
  | true => simpa [hb] using herr

theorem Inv.absorbByte {c : CoreState} (hc : c.Inv) (hp : c.phase = .absorb) (b : Byte) : (absorbByte c b).Inv := by
  obtain ⟨hle, habsorb, -, herr⟩ := hc
  have hlen : c.buf.length = c.len.toNat % 64 := habsorb hp
  have hadd : (c.len + 1).toNat = (c.len.toNat + 1) % 2 ^ 64 := BitVec.toNat_add ..
  simp only [CoreState.Inv, bufLen_eq, absorbByte_phase, absorbByte_len, absorbByte_err, absorbByte_errCode, hp]
  obtain ⟨hroom, h⟩ | ⟨hfull, h⟩ := absorbByte_cases c b
  · have hbuf : (Machine.absorbByte c b).buf.length = c.buf.length + 1 := by simp [h]
    exact ⟨by omega, fun _ => by omega, nofun, herr⟩
  · have hbuf : (Machine.absorbByte c b).buf.length = 0 := by simp [h]
    exact ⟨by omega, fun _ => by omega, nofun, herr⟩

theorem Inv.absorbBytes {c : CoreState} (hc : c.Inv) (hp : c.phase = .absorb) (bs : List Byte) :
    (absorbBytes bs c).Inv := by
  induction bs generalizing c with
  | nil => exact hc
  | cons b bs ih => exact ih (hc.absorbByte hp b) (by simpa using hp)

theorem Inv.finalize {c : CoreState} (hc : c.Inv) : (finalize c).Inv := by
  obtain ⟨-, -, -, herr⟩ := hc
  exact ⟨by simp, by simp, by simp, by simpa using herr⟩

end CoreState

theorem State.Inv.runCommand {s t : State} {c : CommandWord} (hs : s.Inv) (h : runCommand c s = .next t) : t.Inv := by
  obtain ⟨t', ht, hcases⟩ := runCommand_cases c s
  obtain rfl : t' = t := by simpa [ht] using h
  obtain ⟨e, he, hcore, -⟩ | ⟨-, hcore⟩ | ⟨-, -, hcore⟩ | ⟨-, hp, hcore, -⟩ | ⟨hcore, -⟩ := hcases <;>
    rw [State.Inv, hcore]
  · exact CoreState.Inv.recordError hs he
  · exact CoreState.reset_inv
  · exact CoreState.Inv.finalize hs
  · exact CoreState.Inv.absorbBytes hs hp _
  · exact hs

theorem State.Inv.applyEvent {s t : State} {e : PortEvent} (hs : s.Inv) (h : applyEvent e s = .next t) : t.Inv := by
  cases e with
  | command c => exact hs.runCommand h
  | reset =>
    cases h
    exact CoreState.reset_inv
  | resetDuring c =>
    cases h
    exact CoreState.reset_inv

/-- Settles O52: an idle step changes nothing, and the presented event keeps the invariant. -/
theorem stepKeepsTheInvariant : Obligations.StepKeepsTheInvariant := by
  intro s t hs h
  rw [step, stepPort] at h
  cases hin : s.inputs with
  | nil =>
    simp only [hin] at h
    cases h
    exact hs
  | cons e es =>
    simp only [hin] at h
    exact State.Inv.applyEvent (s := { s with inputs := es }) hs h

/-- Settles O51: the values stand in the definition of the reset state, and INIT writes the same core. -/
theorem resetStateMeetsTheInvariant : Obligations.ResetStateMeetsTheInvariant := by
  refine ⟨rfl, rfl, rfl, rfl, rfl, rfl, rfl, rfl, rfl, ?_, CoreState.reset_inv⟩
  intro s t h
  cases h
  rfl

end Sys2Proof.Machine
end

section
/-! SUPPORT. The blocks a command word compresses, and that `H` folds exactly those (10_state.md R21, 43_compressor.md
R121, R122). -/

namespace Sys2Proof.Machine

theorem padTail_length {t : List Byte} (l : BitVec 64) : (padTail t l).length = if t.length ≤ 55 then 1 else 2 := by
  unfold padTail
  split <;> rfl

/-- The tail is cut into whole blocks (41_padder.md R82). -/
theorem length_of_mem_padTail {t : List Byte} {l : BitVec 64} (ht : t.length ≤ 63) {b : List Byte}
    (hb : b ∈ padTail t l) : b.length = 64 := by
  have hlen := paddedTail_length l ht
  unfold padTail at hb
  split at hb
  · rw [if_pos ‹_›] at hlen
    obtain rfl := List.mem_singleton.1 hb
    simp [hlen]
  · rw [if_neg ‹_›] at hlen
    obtain rfl | hb := List.mem_cons.1 hb
    · simp [hlen]
    · obtain rfl := List.mem_singleton.1 hb
      simp [hlen]

/-- `h'` is `h` after `n` whole blocks are compressed into it. -/
def FoldsBlocks (n : Nat) (h h' : Vector Word 8) : Prop :=
  ∃ blks : List (List Byte), (∀ b ∈ blks, b.length = 64) ∧ blks.length = n ∧ h' = blks.foldl compressBlock h

theorem FoldsBlocks.refl (h : Vector Word 8) : FoldsBlocks 0 h h := ⟨[], by simp, rfl, rfl⟩

theorem FoldsBlocks.cons {n : Nat} {h h' : Vector Word 8} {b : List Byte} (hb : b.length = 64)
    (hn : FoldsBlocks n (compressBlock h b) h') : FoldsBlocks (n + 1) h h' := by
  obtain ⟨blks, hall, hlen, rfl⟩ := hn
  exact ⟨b :: blks, List.forall_mem_cons.2 ⟨hb, hall⟩, by simp [hlen], rfl⟩

/-- Absorbed bytes compress the windows they fill. -/
theorem foldsBlocks_absorbBytes (bs : List Byte) {c : CoreState} (hc : c.buf.length ≤ 63) :
    FoldsBlocks ((c.bufLen + bs.length) / 64) c.h (absorbBytes bs c).h := by
  induction bs generalizing c with
  | nil =>
    have hzero : (c.bufLen + ([] : List Byte).length) / 64 = 0 := by simp; omega
    exact hzero ▸ .refl c.h
  | cons b bs ih =>
    rw [absorbBytes_cons]
    obtain ⟨hroom, h⟩ | ⟨hfull, h⟩ := absorbByte_cases c b
    · have hrest := ih (c := absorbByte c b) (by simp [h]; omega)
      simpa [h, Nat.add_assoc, Nat.add_comm 1] using hrest
    · have hrest := ih (c := absorbByte c b) (by simp [h])
      have hblocks : (c.bufLen + (b :: bs).length) / 64 = bs.length / 64 + 1 := by simp; omega
      rw [hblocks]
      exact .cons (b := c.buf ++ [b]) (by simpa using hfull) (by simpa [h] using hrest)

/-- FINAL compresses the tail blocks. -/
theorem foldsBlocks_finalize {c : CoreState} (hc : c.buf.length ≤ 63) :
    FoldsBlocks (padTail c.buf (lengthField c)).length c.h (finalize c).h :=
  ⟨_, fun _ hb => length_of_mem_padTail hc hb, rfl, finalize_h c⟩

theorem blocksCompressed_done (w : CommandWord) {c : CoreState} (hp : c.phase = .done) : blocksCompressed w c = 0 := by
  simp [blocksCompressed, hp]

theorem blocksCompressed_final {w : CommandWord} (hw : decode w = .ok .final) {c : CoreState}
    (hp : c.phase = .absorb) : blocksCompressed w c = (padTail c.buf (lengthField c)).length := by
  simp [blocksCompressed, hp, hw]

/-- Any word but FINAL compresses the windows that its bytes fill. -/
theorem blocksCompressed_of_ne_final {w : CommandWord} (hw : decode w ≠ .ok .final) {c : CoreState}
    (hp : c.phase = .absorb) :
    blocksCompressed w c = if pushedBytes w = [] then 0 else (c.bufLen + (pushedBytes w).length) / 64 := by
  cases hd : decode w with
  | error e => simp [blocksCompressed, pushedBytes, hp, hd]
  | ok i =>
    cases i with
    | final => exact absurd hd hw
    | _ => simp [blocksCompressed, pushedBytes, hp, hd]

theorem blocksCompressed_other {w : CommandWord} (hw : decode w ≠ .ok .final) (hpush : pushedBytes w = [])
    (c : CoreState) : blocksCompressed w c = 0 := by
  obtain hp | hp := c.phase.absorb_or_done
  · rw [blocksCompressed_of_ne_final hw hp, if_pos hpush]
  · exact blocksCompressed_done w hp

theorem pushedBytes_length_le (w : CommandWord) : (pushedBytes w).length ≤ Config.pushMaxBytes := by
  unfold pushedBytes
  split
  · exact pushBytes_length_le _
  · exact Nat.zero_le _

theorem decode_ne_final_of_push {w : CommandWord} (hpush : pushedBytes w ≠ []) : decode w ≠ .ok .final :=
  fun hd => hpush (by simp [pushedBytes, hd, Instr.pushBytes])

theorem blocksCompressed_push_le {w : CommandWord} (hpush : pushedBytes w ≠ []) {c : CoreState}
    (hc : c.bufLen ≤ 63) : blocksCompressed w c ≤ 1 := by
  obtain hp | hp := c.phase.absorb_or_done
  · have hbytes : (pushedBytes w).length ≤ 4 := pushedBytes_length_le w
    rw [blocksCompressed_of_ne_final (decode_ne_final_of_push hpush) hp, if_neg hpush]
    omega
  · simp [blocksCompressed_done w hp]

/-- A command word other than INIT compresses as many blocks as `blocksCompressed` says. -/
theorem runCommand_foldsBlocks {w : CommandWord} (hinit : decode w ≠ .ok .init) {s : State}
    (hs : s.core.buf.length ≤ 63) :
    ∃ t, runCommand w s = .next t ∧ FoldsBlocks (blocksCompressed w s.core) s.core.h t.core.h := by
  obtain ⟨t, ht, hcases⟩ := runCommand_cases w s
  refine ⟨t, ht, ?_⟩
  obtain ⟨e, -, hcore, -, -, hfinal, hpush⟩ | ⟨hd, -⟩ | ⟨hd, hp, hcore⟩ | ⟨hpush, hp, hcore, -, hd⟩ |
    ⟨hcore, hpush, -, hd⟩ := hcases
  · have hzero : blocksCompressed w s.core = 0 := by
      by_cases hp : s.core.phase = .done
      · exact blocksCompressed_done w hp
      · exact blocksCompressed_other (mt hfinal hp) (not_not.1 (mt hpush hp)) _
    rw [hcore, hzero]
    exact .refl _
  · exact absurd hd hinit
  · rw [hcore, blocksCompressed_final hd hp]
    exact foldsBlocks_finalize hs
  · rw [hcore, blocksCompressed_of_ne_final hd hp, if_neg hpush]
    exact foldsBlocks_absorbBytes _ hs
  · rw [hcore, blocksCompressed_other hd hpush]
    exact .refl _

/-- Settles O19: INIT loads `IV`, any other word folds its blocks, and the three bounds are facts of
`blocksCompressed`. -/
theorem onlyWholeBlocksAndInitWriteH : Obligations.OnlyWholeBlocksAndInitWriteH := by
  intro c s hs
  obtain ⟨hbuf, -⟩ := hs
  have hpush := fun h : pushedBytes c ≠ [] => blocksCompressed_push_le h hbuf
  have hfinal : decode c = .ok .final → s.core.phase = .absorb →
      1 ≤ blocksCompressed c s.core ∧ blocksCompressed c s.core ≤ 2 := by
    intro hd hp
    rw [blocksCompressed_final hd hp, padTail_length]
    split <;> simp
  have hother := fun (hd : decode c ≠ .ok .final) (h : pushedBytes c = []) => blocksCompressed_other hd h s.core
  by_cases hinit : decode c = .ok .init
  · exact ⟨_, runCommand_init hinit s, fun _ => rfl, absurd hinit, hpush, hfinal, hother⟩
  · obtain ⟨t, ht, hfolds⟩ := runCommand_foldsBlocks hinit hbuf
    exact ⟨t, ht, fun h => absurd h hinit, fun _ => hfolds, hpush, hfinal, hother⟩

end Sys2Proof.Machine
end

section
/-! SUPPORT. The writers of PHASE and LEN (10_state.md R24, R25). -/

namespace Sys2Proof.Machine

theorem runCommand_phase (c : CommandWord) (s : State) :
    ∃ t, runCommand c s = .next t ∧
      t.core.phase =
        if decode c = .ok .init then .absorb else if decode c = .ok .final then .done else s.core.phase := by
  obtain ⟨t, ht, hcases⟩ := runCommand_cases c s
  refine ⟨t, ht, ?_⟩
  obtain ⟨e, -, hcore, -, hinit, hfinal, -⟩ | ⟨hd, hcore⟩ | ⟨hd, -, hcore⟩ | ⟨-, -, hcore, hinit, hd⟩ |
    ⟨hcore, -, hinit, hd⟩ := hcases
  · rw [hcore, recordError_phase, if_neg hinit]
    split
    · exact hfinal ‹_›
    · rfl
  · rw [hcore, if_pos hd]
    rfl
  · simp [hcore, hd]
  · simp [hcore, hinit, hd]
  · simp [hcore, hinit, hd]

/-- Settles O45: a reset event sets the reset state, and a command word writes PHASE by INIT or FINAL alone. -/
theorem phaseHasThreeWriters : Obligations.PhaseHasThreeWriters := by
  refine ⟨rfl, rfl, fun e s => ?_⟩
  cases e with
  | reset | resetDuring => exact ⟨resetMachine s, rfl, rfl⟩
  | command c =>
    obtain ⟨t, ht, hphase⟩ := runCommand_phase c s
    refine ⟨t, ht, hphase.trans ?_⟩
    by_cases hinit : decode c = .ok .init
    · simp [hinit]
    · by_cases hfinal : decode c = .ok .final <;> simp [hinit, hfinal]

theorem runCommand_len (c : CommandWord) (s : State) :
    ∃ t, runCommand c s = .next t ∧
      t.core.len =
        if decode c = .ok .init then 0
        else if s.core.phase = .done then s.core.len
        else s.core.len + BitVec.ofNat 64 (pushedBytes c).length := by
  obtain ⟨t, ht, hcases⟩ := runCommand_cases c s
  refine ⟨t, ht, ?_⟩
  obtain ⟨e, -, hcore, -, hinit, -, hpush⟩ | ⟨hd, hcore⟩ | ⟨hd, hp, hcore⟩ | ⟨-, hp, hcore, hinit, -⟩ |
    ⟨hcore, hpush, hinit, -⟩ := hcases
  · rw [hcore, recordError_len, if_neg hinit]
    split
    · rfl
    · have hnil : pushedBytes c = [] := not_not.1 (mt hpush ‹_›)
      simp [hnil]
  · rw [hcore, if_pos hd]
    rfl
  · simp [hcore, hd, hp, pushedBytes, Instr.pushBytes]
  · simp [hcore, hinit, hp, absorbBytes_len]
  · simp [hcore, hinit, hpush]

/-- Settles O46: a reset event clears LEN, INIT clears it, and an absorbing core counts the bytes a word pushes. -/
theorem lenCountsPushedBytes : Obligations.LenCountsPushedBytes := by
  refine ⟨fun e s => ?_, fun c => BitVec.toNat_mul ..⟩
  cases e with
  | reset | resetDuring => exact ⟨resetMachine s, rfl, rfl⟩
  | command c =>
    obtain ⟨t, ht, hlen⟩ := runCommand_len c s
    refine ⟨t, ht, hlen.trans ?_⟩
    by_cases hinit : decode c = .ok .init
    · simp [hinit]
    · obtain hp | hp := s.core.phase.absorb_or_done <;> simp [hinit, hp]

end Sys2Proof.Machine
end

section
/-! SUPPORT. Reads of the core (20_memory.md R51). -/

namespace Sys2Proof.Machine

theorem readDigest_eq (f : CoreState → Word) (s : State) :
    readDigest f s = if s.core.phase == .done then accept s.core (f s.core) s else reject .notDone s := by
  obtain hp | hp := s.core.phase.absorb_or_done
  · rw [readDigest_absorb hp, hp]
    rfl
  · rw [readDigest_done hp, hp]
    rfl

/-- A read answers from the core alone and keeps it, or is rejected with NOT_DONE. -/
theorem exec_read {i : Instr}
    (h : (∃ k, i = .rdword k) ∨ (∃ n, i = .rdbyte n) ∨ i = .rdstat ∨ i = .rdlenlo ∨ i = .rdlenhi) :
    ∃ f : CoreState → Word, ∀ s, exec i s =
      if acceptedIn i s.core.phase then accept s.core (f s.core) s else reject .notDone s := by
  obtain ⟨k, rfl⟩ | ⟨n, rfl⟩ | rfl | rfl | rfl := h
  · exact ⟨digestWord k, readDigest_eq _⟩
  · exact ⟨digestByte n, readDigest_eq _⟩
  · exact ⟨statusWord, fun _ => rfl⟩
  · exact ⟨fun c => c.len.extractLsb' 0 32, fun _ => rfl⟩
  · exact ⟨fun c => c.len.extractLsb' 32 32, fun _ => rfl⟩

/-- Settles O41: an accepted read finds the same core again, a rejected one records its error. -/
theorem readsHaveNoSideEffect : Obligations.ReadsHaveNoSideEffect := by
  intro i s hi
  obtain ⟨f, hf⟩ := exec_read hi
  by_cases ha : acceptedIn i s.core.phase = true
  · have hread : ∀ rsp, exec i { s with rsp := rsp } = accept s.core (f s.core) s := fun rsp => by
      rw [hf, if_pos ha]
      rfl
    exact ⟨_, _, hread s.rsp, rfl, rfl, fun _ => ⟨rfl, hread _⟩, nofun⟩
  · exact ⟨_, _, (hf s).trans (if_neg ha), rfl, rfl, nofun, fun _ => rfl⟩

end Sys2Proof.Machine
end

section
/-! SUPPORT. A run of presented commands (20_memory.md R53). -/

namespace Sys2Proof.Machine

/-- A run of command words from a core and a response: one response each, the last of them left on the port, and the same
end whether the words are run as they come or are taken from the queue, whatever the queue holds after them. -/
theorem runCommands_answers (cs : List CommandWord) (c : CoreState) (rsp : Option Response) :
    ∃ (c' : CoreState) (rs : List Response), rs.length = cs.length ∧
      (∀ inputs, runCommands cs ⟨c, rsp, inputs⟩ = .next (⟨c', rs.getLast?.or rsp, inputs⟩, rs)) ∧
      ∀ es, Sys2Proof.core.run cs.length ⟨c, rsp, cs.map .command ++ es⟩ = .next ⟨c', rs.getLast?.or rsp, es⟩ := by
  induction cs generalizing c rsp with
  | nil => exact ⟨c, [], rfl, fun _ => rfl, fun _ => rfl⟩
  | cons w cs ih =>
    obtain ⟨c₁, r, hw⟩ := stepIsAFunctionOfCoreAndCommand c w
    obtain ⟨c₂, rs, hlen, hrun, hqueue⟩ := ih c₁ (some r)
    have hlast : (r :: rs).getLast?.or rsp = rs.getLast?.or (some r) := by
      rw [List.getLast?_cons]
      cases rs.getLast? <;> rfl
    refine ⟨c₂, r :: rs, by simp [hlen], fun inputs => ?_, fun es => ?_⟩
    · simp [runCommands, hw, hrun, hlast]
    · have hstep : Sys2Proof.core.step ⟨c, rsp, .command w :: (cs.map .command ++ es)⟩ =
          .next ⟨c₁, some r, cs.map .command ++ es⟩ := hw rsp _
      rw [hlast, ← hqueue es]
      simp only [List.length_cons, List.map_cons, List.cons_append, Host.Core.run]
      rw [hstep]

/-- Settles O49: the queue holds the commands and then `es`. -/
theorem queueRunsLeftToRight : Obligations.QueueRunsLeftToRight := by
  rintro cs ⟨c, rsp, inputs⟩ es rfl
  obtain ⟨c', rs, hlen, hrun, hqueue⟩ := runCommands_answers cs c rsp
  refine ⟨_, rs, hrun _, hlen, fun hcs => ?_, hqueue es⟩
  have hrs : rs ≠ [] := by
    rintro rfl
    exact hcs (List.eq_nil_of_length_eq_zero hlen.symm)
  simp [List.getLast?_eq_some_getLast hrs]

end Sys2Proof.Machine
end

section
/-! SUPPORT. PUSHes by the bytes they carry: a window that the bytes fill, and a run of PUSH words as one push of all
their bytes, in every phase (20_memory.md R45, R47). -/

namespace Sys2Proof.Machine

/-- Bytes that fill the window compress it and leave it empty. -/
theorem absorbBytes_of_full (bs : List Byte) (c : CoreState) (hlt : c.buf.length < 64)
    (h : c.buf.length + bs.length = 64) :
    absorbBytes bs c =
      { c with h := compressBlock c.h (c.buf ++ bs), buf := [], len := c.len + BitVec.ofNat 64 bs.length } := by
  induction bs generalizing c with
  | nil => simp at h; omega
  | cons b bs ih =>
    simp only [List.length_cons] at h
    obtain ⟨hroom, hb⟩ | ⟨hfull, hb⟩ := absorbByte_cases c b
    · rw [absorbBytes_cons, hb, ih _ (by simp; omega) (by simp; omega)]
      simp [appendByte, BitVec.add_assoc, Nat.add_comm bs.length 1, BitVec.ofNat_add]
    · obtain rfl : bs = [] := List.eq_nil_of_length_eq_zero (by omega)
      simp [hb]

theorem pushCommand_completes (bs : List Byte) (s : State) : ∃ t, pushCommand bs s = .next t := by
  obtain hp | hp := s.core.phase.absorb_or_done
  · exact ⟨_, pushCommand_absorb hp⟩
  · exact ⟨_, pushCommand_done hp⟩

/-- A rejection that finds `ERR` set keeps the first one's code (60_exceptions.md R167). -/
theorem recordError_recordError (e e' : ErrCode) (c : CoreState) :
    recordError e' (recordError e c) = recordError e c := rfl

/-- Two PUSHes, one after the other, are one PUSH of their bytes, accepted or rejected. -/
theorem pushCommand_append {bs : List Byte} {s t : State} (h : pushCommand bs s = .next t) (bs' : List Byte) :
    pushCommand bs' t = pushCommand (bs ++ bs') s := by
  obtain ⟨hp, rfl⟩ | ⟨hp, rfl⟩ := pushCommand_cases h
  · rw [pushCommand_absorb hp, pushCommand_absorb (by simpa using hp), absorbBytes_append, accept, accept]
  · rw [pushCommand_done hp, pushCommand_done (by simpa using hp), reject, reject, recordError_recordError]

theorem runCommands_cons {w : CommandWord} {ws : List CommandWord} {s s' t : State} {rs : List Response}
    (h : runCommand w s = .next s') (h' : runCommands ws s' = .next (t, rs)) :
    runCommands (w :: ws) s = .next (t, s'.rsp.toList ++ rs) := by
  simp [runCommands, h, h']

/-- PUSH words end where one push of all their bytes ends, in either phase. -/
theorem runCommands_pushes {ws : List CommandWord} (hne : ws ≠ []) (hws : ∀ w ∈ ws, pushedBytes w ≠ []) (s : State) :
    ∃ t rs, runCommands ws s = .next (t, rs) ∧ pushCommand (ws.flatMap pushedBytes) s = .next t := by
  induction ws generalizing s with
  | nil => exact absurd rfl hne
  | cons w ws ih =>
    obtain ⟨hw, hws⟩ := List.forall_mem_cons.1 hws
    obtain ⟨s', hpush⟩ := pushCommand_completes (pushedBytes w) s
    have hrun : runCommand w s = .next s' := (runCommand_push hw s).trans hpush
    by_cases hnil : ws = []
    · subst hnil
      exact ⟨s', _, runCommands_cons hrun rfl, by simpa using hpush⟩
    · obtain ⟨t, rs, hrest, ht⟩ := ih hnil hws s'
      refine ⟨t, _, runCommands_cons hrun hrest, ?_⟩
      rw [List.flatMap_cons, ← pushCommand_append hpush, ht]

/-- Two runs of PUSH words that carry the same bytes end in the same state, the response on the port included. -/
theorem runCommands_pushes_congr {ws ws' : List CommandWord} (hne : ws ≠ []) (hne' : ws' ≠ [])
    (hws : ∀ w ∈ ws, pushedBytes w ≠ []) (hws' : ∀ w ∈ ws', pushedBytes w ≠ [])
    (h : ws.flatMap pushedBytes = ws'.flatMap pushedBytes) (s : State) :
    ∃ t rs rs', runCommands ws s = .next (t, rs) ∧ runCommands ws' s = .next (t, rs') := by
  obtain ⟨t, rs, hrun, ht⟩ := runCommands_pushes hne hws s
  obtain ⟨t', rs', hrun', ht'⟩ := runCommands_pushes hne' hws' s
  obtain rfl : t = t' := Host.Outcome.next.inj (ht.symm.trans (h ▸ ht'))
  exact ⟨t, rs, rs', hrun, hrun'⟩

/-- The byte that PUSH1 takes from a shifted word. -/
theorem fieldB0_shiftLeft (w : Word) {n : Nat} (hn : n ≤ 24) : fieldB0 (w <<< n) = w.extractLsb' (24 - n) 8 := by
  apply BitVec.eq_of_getLsbD_eq
  intro j hj
  simp only [fieldB0, BitVec.getLsbD_extractLsb', BitVec.getLsbD_shiftLeft, show 24 + j - n = 24 - n + j by omega]
  simp [show 24 + j < 32 by omega, show ¬24 + j < n by omega]

theorem pushedBytes_push1 (w : Word) : pushedBytes (commandWord 0x20#8 w) = [fieldB0 w] := by
  simp [pushedBytes, Instr.pushBytes]

theorem pushedBytes_push4 (w : Word) : pushedBytes (commandWord 0x23#8 w) = bytes32 w := by
  simp [pushedBytes, Instr.pushBytes, bytes32, fieldB0, fieldB1, fieldB2, fieldB3]

/-- The four PUSH1 words that carry the bytes of `w`, most significant first. -/
theorem flatMap_pushedBytes_push1s (w : Word) :
    [commandWord 0x20#8 w, commandWord 0x20#8 (w <<< 8), commandWord 0x20#8 (w <<< 16),
      commandWord 0x20#8 (w <<< 24)].flatMap pushedBytes = bytes32 w := by
  simp only [List.flatMap_cons, List.flatMap_nil, pushedBytes_push1, List.cons_append, List.nil_append]
  rw [fieldB0_shiftLeft w (show 8 ≤ 24 by decide), fieldB0_shiftLeft w (show 16 ≤ 24 by decide),
    fieldB0_shiftLeft w (show 24 ≤ 24 by decide)]
  rfl

end Sys2Proof.Machine
end

section
/-! SUPPORT. Big-endian words among the bytes around them (20_memory.md R45, R47). -/

namespace Sys2Proof.Machine

/-- A word is read back from the place its bytes stand at. -/
theorem be32_append_bytes32 (before after : List Byte) (w : Word) :
    be32 (before ++ bytes32 w ++ after) before.length = w := by
  have hget : ∀ j : Nat, (before ++ bytes32 w ++ after).getD (before.length + j) 0 = (bytes32 w ++ after).getD j 0 := by
    intro j
    simp [List.getD_eq_getElem?_getD, List.getElem?_append_right]
  have hzero := hget 0
  rw [Nat.add_zero] at hzero
  rw [be32, hzero, hget 1, hget 2, hget 3]
  exact argOfBytes_fields w

theorem flatMap_bytes32_length (ws : List Word) : (ws.flatMap bytes32).length = 4 * ws.length := by
  simp [List.length_flatMap, Nat.mul_comm]

/-- The bytes of `H[k]` stand at offset `4k` of the digest (44_serializer.md R130). -/
theorem serialize_split (h : Vector Word 8) {k : Nat} (hk : k < 8) :
    ∃ before after : List Byte, before.length = 4 * k ∧ serialize h = before ++ bytes32 h[k] ++ after := by
  refine ⟨(h.toList.take k).flatMap bytes32, (h.toList.drop (k + 1)).flatMap bytes32, ?_, ?_⟩
  · rw [flatMap_bytes32_length, List.length_take, Vector.length_toList, Nat.min_eq_left hk.le]
  · have hdrop : h.toList.drop k = h[k] :: h.toList.drop (k + 1) := by
      rw [List.drop_eq_getElem_cons (by simpa using hk), Vector.getElem_toList]
    rw [serialize, List.append_assoc, ← List.flatMap_cons, ← hdrop, ← List.flatMap_append, List.take_append_drop]

theorem be32_serialize (h : Vector Word 8) {k : Nat} (hk : k < 8) : be32 (serialize h) (4 * k) = h[k] := by
  obtain ⟨before, after, hlen, hsplit⟩ := serialize_split h hk
  rw [hsplit, ← hlen, be32_append_bytes32]

/-- Settles O13: below offset 60 the word's bytes leave room, at 60 they fill the window, and the schedule reads them
back from offset `4i`. -/
theorem pushedWordIsTheScheduleWord : Obligations.PushedWordIsTheScheduleWord := by
  intro w i hi
  refine ⟨fun s hp hlen hlt => ⟨_, pushCommand_absorb hp, ?room⟩,
    fun s hp hlen heq => ⟨_, pushCommand_absorb hp, ?full⟩, fun before after hlen => ?read⟩
  case room =>
    have hroom : s.core.buf.length + (bytes32 w).length < 64 := by
      rw [← CoreState.bufLen_eq, hlen, bytes32_length]; omega
    exact congrArg CoreState.buf (absorbBytes_of_lt (bytes32 w) s.core hroom)
  case full =>
    have hbuf : s.core.buf.length = 60 := by rw [← CoreState.bufLen_eq, hlen, heq]
    exact congrArg CoreState.h (absorbBytes_of_full (bytes32 w) s.core (by omega) (by rw [hbuf, bytes32_length]))
  case read => rw [schedule_getElem?_of_lt _ hi, ← hlen, be32_append_bytes32]

theorem exec_rdbyte_done {n : Nat} (hn : n < 32) {s : State} (hp : s.core.phase = .done) :
    exec (.rdbyte (BitVec.ofNat 5 n)) s =
      .next { s with rsp := some ⟨true, ((serialize s.core.h).getD n 0).setWidth 32⟩ } := by
  have hbyte : digestByte (BitVec.ofNat 5 n) s.core = ((serialize s.core.h).getD n 0).setWidth 32 := by
    rw [digestByte, BitVec.toNat_ofNat, Nat.mod_eq_of_lt hn]
  exact hbyte ▸ readDigest_done hp

/-- RDWORD reads the big-endian word at its place in the digest (44_serializer.md R131). -/
theorem exec_rdword_done (k : BitVec 3) {s : State} (hp : s.core.phase = .done) :
    exec (.rdword k) s = .next { s with rsp := some ⟨true, be32 (serialize s.core.h) (4 * k.toNat)⟩ } := by
  rw [be32_serialize s.core.h k.isLt]
  exact readDigest_done hp

/-- Settles O27: a digest word is the four bytes at its place in the digest, and the PUSH4 word carries the bytes of the
four PUSH1 words. -/
theorem mixedWidthViewsAgree : Obligations.MixedWidthViewsAgree := by
  refine ⟨fun s k hp => ?reads, fun s w => ?pushes⟩
  case reads =>
    have hk : k.toNat < 8 := k.isLt
    exact ⟨_, _, _, _, exec_rdbyte_done (by omega) hp, exec_rdbyte_done (by omega) hp, exec_rdbyte_done (by omega) hp,
      exec_rdbyte_done (by omega) hp, exec_rdword_done k hp⟩
  case pushes =>
    have hbytes : [commandWord 0x23#8 w].flatMap pushedBytes = bytes32 w := by
      rw [List.flatMap_singleton, pushedBytes_push4]
    exact runCommands_pushes_congr (by simp) (by simp) (by simp [pushedBytes_push4, bytes32])
      (by simp [pushedBytes_push1]) (hbytes.trans (flatMap_pushedBytes_push1s w).symm) s

end Sys2Proof.Machine
end

section
/-! SUPPORT. The padded tail's blocks and the length field in the last one (20_memory.md R43, 41_padder.md R82). -/

namespace Sys2Proof.Machine

/-- A tail that leaves room for the marker and the length field is one block. -/
theorem padTail_of_le {t : List Byte} (l : BitVec 64) (h : t.length ≤ 55) :
    padTail t l = [t ++ [0x80] ++ zeros (55 - t.length) ++ be64 l] := by
  have hlen := paddedTail_length l (show t.length ≤ 63 by omega)
  rw [if_pos h] at hlen
  rw [padTail, if_pos h, slice, List.drop_zero, List.take_of_length_le hlen.le, paddedTail, zeroCount_of_le h]
  rfl

/-- A longer tail takes two blocks, the second of them zeros and the length field. -/
theorem padTail_of_ge {t : List Byte} (l : BitVec 64) (h : 56 ≤ t.length) (h' : t.length ≤ 63) :
    padTail t l = [t ++ [0x80] ++ zeros (63 - t.length), zeros 56 ++ be64 l] := by
  have hsplit : paddedTail t l = (t ++ [0x80] ++ zeros (63 - t.length)) ++ (zeros 56 ++ be64 l) := by
    rw [paddedTail, zeroCount_of_ge h h', zeros, List.replicate_add]
    simp [zeros, Config.marker]
  have hfirst : (t ++ [0x80] ++ zeros (63 - t.length) : List Byte).length = 64 := by simp; omega
  have hsecond : (zeros 56 ++ be64 l).length = 64 := by simp
  rw [padTail, if_neg (by omega), hsplit]
  simp only [slice]
  rw [List.drop_zero, List.take_left' hfirst, List.take_of_length_le (by rw [List.length_append, hfirst, hsecond]),
    List.drop_left' hfirst]

/-- The last block is 56 bytes and the length field. -/
theorem padTail_getLast? {t : List Byte} (l : BitVec 64) (h : t.length ≤ 63) :
    ∃ front : List Byte, front.length = 56 ∧ (padTail t l).getLast? = some (front ++ be64 l) := by
  by_cases h55 : t.length ≤ 55
  · refine ⟨t ++ [0x80] ++ zeros (55 - t.length), by simp; omega, ?_⟩
    rw [padTail_of_le l h55]
    rfl
  · refine ⟨zeros 56, zeros_length 56, ?_⟩
    rw [padTail_of_ge l (by omega) h]
    rfl

/-- The eight bytes read big-endian are the number. -/
theorem be64_foldl (v : BitVec 64) : (be64 v).foldl (fun n x => n * 256 + x.toNat) 0 = v.toNat := by
  have hv := v.isLt
  simp [be64, List.range_succ, Nat.shiftRight_eq_div_pow]
  omega

/-- Settles O21: the last block is 56 bytes and then the eight bytes of the length. -/
theorem lengthFieldIsBigEndianAtOffset56 : Obligations.LengthFieldIsBigEndianAtOffset56 := by
  intro t l h
  obtain ⟨front, hfront, hlast⟩ := padTail_getLast? l h
  have hdrop : (front ++ be64 l).drop 56 = be64 l := List.drop_left' hfront
  have hget : ∀ j : Nat, (front ++ be64 l)[56 + j]? = (be64 l)[j]? := fun j => by
    rw [← List.getElem?_drop, hdrop]
  exact ⟨_, hlast, hdrop, hget 0, hget 7, by rw [hdrop, be64_foldl]⟩

end Sys2Proof.Machine
end

section
/-! SUPPORT. The bits of a command word that its command uses (30_encoding.md R61, R62, R66): for a value of OP of the
map the decoder reads exactly those, and the encoder writes 0 in the others. -/

namespace Sys2Proof

open Sys2Proof.Machine

/-- Settles O1: `decode_encode` reads each form's operands back from their bits of ARG. -/
theorem decodeInvertsEncode : Obligations.DecodeInvertsEncode := decode_encode

theorem commandWord_inj {a b : Byte} {x y : Word} : commandWord a x = commandWord b y ↔ a = b ∧ x = y := by
  refine ⟨fun h => ⟨?_, ?_⟩, fun ⟨hop, harg⟩ => by rw [hop, harg]⟩
  · simpa using congrArg opField h
  · simpa using congrArg argField h

/-- A mask of bytes masks ARG's four fields one by one. -/
theorem and_argOfBytes (x : Word) (a b c d : Byte) :
    x &&& argOfBytes a b c d =
      argOfBytes (fieldB0 x &&& a) (fieldB1 x &&& b) (fieldB2 x &&& c) (fieldB3 x &&& d) := by
  conv_lhs => rw [← argOfBytes_fields x]
  exact argOfBytes_and _ _ _ _ _ _ _ _

theorem byte_and_ff (b : Byte) : b &&& 0xff#8 = b := BitVec.and_allOnes

/-- The mask of the `k` lowest bits leaves the field of those bits. -/
theorem and_lowMask (k : Nat) (x : Word) : x &&& BitVec.ofNat 32 (2 ^ k - 1) = (x.extractLsb' 0 k).setWidth 32 := by
  apply BitVec.eq_of_getLsbD_eq
  intro n hn
  simp only [BitVec.getLsbD_and, BitVec.getLsbD_ofNat, Nat.testBit_two_pow_sub_one, BitVec.getLsbD_setWidth,
    BitVec.getLsbD_extractLsb', hn, decide_true, Bool.true_and, Nat.zero_add, Bool.and_comm]

/-- Under the opcode of `i` the decoder reads a command whose encoded ARG is the given one on the bits `i` uses. -/
theorem decodeFields_opcode (i : Instr) (arg : Word) :
    ∃ j, decodeFields i.opcode arg = .ok j ∧ arg &&& i.usedArg = j.arg := by
  cases i with
  | nop | init | final | rdstat | rdlenlo | rdlenhi => exact ⟨_, rfl, BitVec.and_zero⟩
  | push1 => exact ⟨_, rfl, (and_argOfBytes arg 0xff 0 0 0).trans (by simp [byte_and_ff, Instr.arg])⟩
  | push2 => exact ⟨_, rfl, (and_argOfBytes arg 0xff 0xff 0 0).trans (by simp [byte_and_ff, Instr.arg])⟩
  | push3 => exact ⟨_, rfl, (and_argOfBytes arg 0xff 0xff 0xff 0).trans (by simp [byte_and_ff, Instr.arg])⟩
  | push4 => exact ⟨_, rfl, (and_argOfBytes arg 0xff 0xff 0xff 0xff).trans (by simp [byte_and_ff, Instr.arg])⟩
  | rdword => exact ⟨_, rfl, and_lowMask 3 arg⟩
  | rdbyte => exact ⟨_, rfl, and_lowMask 5 arg⟩

theorem encode_injective {i j : Instr} (h : encode i = encode j) : i = j :=
  Except.ok.inj ((decode_encode i).symm.trans ((congrArg decode h).trans (decode_encode j)))

/-- A value of OP and an ARG decode to `i` exactly when they are `i`'s on the bits it uses. -/
theorem decodeFields_ok_iff {op : Byte} {arg : Word} {i : Instr} :
    decodeFields op arg = .ok i ↔ op = i.opcode ∧ arg &&& i.usedArg = i.arg := by
  constructor
  · intro h
    have hop := decodeFields_ok_opcode h
    obtain ⟨j, hj, harg⟩ := decodeFields_opcode i arg
    obtain rfl : i = j := Except.ok.inj (h.symm.trans (hop ▸ hj))
    exact ⟨hop, harg⟩
  · rintro ⟨rfl, harg⟩
    obtain ⟨j, hj, hjarg⟩ := decodeFields_opcode i arg
    have hop : i.opcode = j.opcode := decodeFields_ok_opcode hj
    obtain rfl : i = j := encode_injective (commandWord_inj.2 ⟨hop, harg.symm.trans hjarg⟩)
    exact hj

/-- Settles O2: word and mask are taken apart into OP and ARG; OP is compared whole, ARG under the command's mask. -/
theorem decodedWordsAgreeOnUsedBits : Obligations.DecodedWordsAgreeOnUsedBits := by
  intro c i
  have hop : opField c &&& 0xff = opField c := byte_and_ff _
  calc decode c = .ok i
      ↔ opField c = i.opcode ∧ argField c &&& i.usedArg = i.arg := decodeFields_ok_iff
    _ ↔ commandWord (opField c) (argField c) &&& i.usedBits = encode i := by
        rw [Instr.usedBits, commandWord_and, hop, encode, commandWord_inj]
    _ ↔ c &&& i.usedBits = encode i := by rw [commandWord_fields]

/-- The encoder writes 0 in every bit the command does not use (30_encoding.md R66, R72). -/
theorem encode_and_not_usedBits (i : Instr) : encode i &&& ~~~i.usedBits = 0 := by
  have hused : encode i &&& i.usedBits = encode i := (decodedWordsAgreeOnUsedBits _ i).1 (decode_encode i)
  rw [← hused, BitVec.and_assoc, BitVec.and_not_self]
  exact BitVec.and_zero

/-- Settles O3: the two words decode to the same command, so they run alike; the masks stand in the definitions. -/
theorem ignoredArgBitsChangeNothing : Obligations.IgnoredArgBitsChangeNothing := by
  refine ⟨fun c c' i hc hagree s => ?_, encode_and_not_usedBits, by decide, fun _ => rfl, fun _ => rfl, by decide⟩
  have hc' : decode c' = .ok i :=
    (decodedWordsAgreeOnUsedBits c' i).2 (hagree ▸ (decodedWordsAgreeOnUsedBits c i).1 hc)
  rw [runCommand_ok hc, runCommand_ok hc']

/-- The five ranges of 30_encoding.md R67 are the values of OP outside the map. -/
theorem illegalOp_iff_not_mem {op : Byte} : illegalOp op = true ↔ op ∉ listedOpcodes := by
  simp only [illegalOp, listedOpcodes, Bool.or_eq_true, decide_eq_true_eq, List.mem_cons, List.not_mem_nil, or_false,
    not_or]
  bv_omega

/-- Settles O4: an opcode is outside the map or is that of a command, and the decoder answers by that alone. -/
theorem unlistedOpcodesAreIllegal : Obligations.UnlistedOpcodesAreIllegal := by
  refine ⟨by decide +kernel, fun c => ⟨fun hill => ?illegal, fun hleg => ?listed⟩⟩
  case illegal =>
    have hd : decode c = .error (.illegal (opField c)) := decodeFields_unlisted (illegalOp_iff_not_mem.1 hill) _
    exact ⟨hd, fun s => runCommand_error hd s⟩
  case listed =>
    obtain ⟨i, -, hd⟩ | ⟨hmem, -⟩ := decodeFields_cases (opField c) (argField c)
    · exact ⟨i, hd⟩
    · exact absurd (illegalOp_iff_not_mem.2 hmem) (Bool.eq_false_iff.1 hleg)

end Sys2Proof
end

section
/-! SUPPORT. The operands of a decoded command as bits of the command word (30_encoding.md R60, R61, R63 to R65). -/

namespace Sys2Proof

open Sys2Proof.Machine

/-- A field of ARG is the same bits of the command word (30_encoding.md R60). -/
theorem argField_extractLsb' (c : CommandWord) {n k : Nat} (h : n + k ≤ 32) :
    (argField c).extractLsb' n k = c.extractLsb' n k := by
  apply BitVec.eq_of_getLsbD_eq
  intro i hi
  simp [argField, hi, show n + i < 32 by omega]

theorem fieldB0_argField (c : CommandWord) : fieldB0 (argField c) = c.extractLsb' 24 8 :=
  argField_extractLsb' c (by decide)
theorem fieldB1_argField (c : CommandWord) : fieldB1 (argField c) = c.extractLsb' 16 8 :=
  argField_extractLsb' c (by decide)
theorem fieldB2_argField (c : CommandWord) : fieldB2 (argField c) = c.extractLsb' 8 8 :=
  argField_extractLsb' c (by decide)
theorem fieldB3_argField (c : CommandWord) : fieldB3 (argField c) = c.extractLsb' 0 8 :=
  argField_extractLsb' c (by decide)
theorem fieldKidx_argField (c : CommandWord) : fieldKidx (argField c) = c.extractLsb' 0 3 :=
  argField_extractLsb' c (by decide)
theorem fieldBidx_argField (c : CommandWord) : fieldBidx (argField c) = c.extractLsb' 0 5 :=
  argField_extractLsb' c (by decide)

theorem decode_of_opField {c : CommandWord} {op : Byte} (h : opField c = op) :
    decode c = decodeFields op (argField c) :=
  congrArg (decodeFields · (argField c)) h

theorem decode_push1 {c : CommandWord} (h : opField c = 0x20#8) : decode c = .ok (.push1 (c.extractLsb' 24 8)) := by
  rw [decode_of_opField h, decodeFields_push1, fieldB0_argField]

theorem decode_push2 {c : CommandWord} (h : opField c = 0x21#8) :
    decode c = .ok (.push2 (c.extractLsb' 24 8) (c.extractLsb' 16 8)) := by
  rw [decode_of_opField h, decodeFields_push2, fieldB0_argField, fieldB1_argField]

theorem decode_push3 {c : CommandWord} (h : opField c = 0x22#8) :
    decode c = .ok (.push3 (c.extractLsb' 24 8) (c.extractLsb' 16 8) (c.extractLsb' 8 8)) := by
  rw [decode_of_opField h, decodeFields_push3, fieldB0_argField, fieldB1_argField, fieldB2_argField]

theorem decode_push4 {c : CommandWord} (h : opField c = 0x23#8) :
    decode c = .ok (.push4 (c.extractLsb' 24 8) (c.extractLsb' 16 8) (c.extractLsb' 8 8) (c.extractLsb' 0 8)) := by
  rw [decode_of_opField h, decodeFields_push4, fieldB0_argField, fieldB1_argField, fieldB2_argField, fieldB3_argField]

theorem decode_rdword {c : CommandWord} (h : opField c = 0x40#8) : decode c = .ok (.rdword (c.extractLsb' 0 3)) := by
  rw [decode_of_opField h, decodeFields_rdword, fieldKidx_argField]

theorem decode_rdbyte {c : CommandWord} (h : opField c = 0x41#8) : decode c = .ok (.rdbyte (c.extractLsb' 0 5)) := by
  rw [decode_of_opField h, decodeFields_rdbyte, fieldBidx_argField]

/-- Settles O5: OP selects the clause; a command's operands are the fields of ARG, so bits of the word. -/
theorem decoderFollowsTheOpcodeMap : Obligations.DecoderFollowsTheOpcodeMap := fun _ =>
  ⟨decode_of_opField, decode_of_opField, decode_push1, decode_push2, decode_push3, decode_push4, decode_of_opField,
    decode_rdword, decode_rdbyte, decode_of_opField, decode_of_opField, decode_of_opField,
    fun h => decodeFields_unlisted h _⟩

theorem pushedBytes_of_ok {c : CommandWord} {i : Instr} (h : decode c = .ok i) : pushedBytes c = i.pushBytes := by
  simp [pushedBytes, h]

/-- A word with `OP[7:2] = 0b001000` is one of the four PUSHes, and `OP[1:0]` says which (30_encoding.md R63). -/
theorem opField_push_cases {c : CommandWord} (h : c.extractLsb' 34 6 = 0b001000#6) :
    (opField c = 0x20#8 ∧ c.extractLsb' 32 2 = 0#2) ∨ (opField c = 0x21#8 ∧ c.extractLsb' 32 2 = 1#2) ∨
    (opField c = 0x22#8 ∧ c.extractLsb' 32 2 = 2#2) ∨ (opField c = 0x23#8 ∧ c.extractLsb' 32 2 = 3#2) := by
  simp only [opField, BitVec.toNat_eq, BitVec.extractLsb'_toNat, Nat.shiftRight_eq_div_pow, BitVec.toNat_ofNat] at h ⊢
  omega

/-- A PUSH word decodes to the command that carries the first NB bytes of ARG (30_encoding.md R63, R64). -/
theorem decode_push {c : CommandWord} (h : c.extractLsb' 34 6 = 0b001000#6) :
    ∃ i, decode c = .ok i ∧
      i.pushBytes = (List.range ((c.extractLsb' 32 2).toNat + 1)).map fun j => c.extractLsb' (24 - 8 * j) 8 := by
  obtain ⟨hop, hnb⟩ | ⟨hop, hnb⟩ | ⟨hop, hnb⟩ | ⟨hop, hnb⟩ := opField_push_cases h <;> rw [hnb]
  · exact ⟨_, decode_push1 hop, rfl⟩
  · exact ⟨_, decode_push2 hop, rfl⟩
  · exact ⟨_, decode_push3 hop, rfl⟩
  · exact ⟨_, decode_push4 hop, rfl⟩

/-- Settles O6: the bytes are those of the decoded PUSH, and `OP[1:0]` has two bits. -/
theorem pushCarriesNbBytesInOrder : Obligations.PushCarriesNbBytesInOrder := by
  intro c h
  obtain ⟨i, hd, hbytes⟩ := decode_push h
  have hpushed : pushedBytes c = i.pushBytes := pushedBytes_of_ok hd
  have hlen : (pushedBytes c).length = (c.extractLsb' 32 2).toNat + 1 := by simp [hpushed, hbytes]
  have hnb : (c.extractLsb' 32 2).toNat < 4 := (c.extractLsb' 32 2).isLt
  exact ⟨⟨i, hd, hpushed.symm⟩, hpushed.trans hbytes, by omega, by omega⟩

end Sys2Proof
end

section
/-! SUPPORT. The PUSHes of a byte sequence (30_encoding.md R73). -/

namespace Sys2Proof.Machine

theorem pushSequence_flatMap (m : List Byte) : (pushSequence m).flatMap Instr.pushBytes = m := by
  induction m using pushSequence.induct with
  | case1 | case2 | case3 | case4 => rfl
  | case5 a b c d rest ih => rw [pushSequence, List.flatMap_cons, ih]; rfl

theorem pushSequence_length (m : List Byte) :
    (pushSequence m).length = m.length / 4 + (if m.length % 4 = 0 then 0 else 1) := by
  induction m using pushSequence.induct with
  | case1 | case2 | case3 | case4 => simp [pushSequence]
  | case5 a b c d rest ih => simp [pushSequence, ih, Nat.add_assoc, Nat.add_comm 1]

theorem pushSequence_pushes (m : List Byte) : ∀ i ∈ pushSequence m, i.pushBytes ≠ [] := by
  induction m using pushSequence.induct with
  | case1 | case2 | case3 | case4 => simp [pushSequence, Instr.pushBytes]
  | case5 a b c d rest ih => exact List.forall_mem_cons.2 ⟨by simp [Instr.pushBytes], ih⟩

theorem pushSequence_take_push4 (m : List Byte) :
    ∀ i ∈ (pushSequence m).take (m.length / 4), i.pushBytes.length = 4 := by
  induction m using pushSequence.induct with
  | case1 | case2 | case3 | case4 => simp
  | case5 a b c d rest ih =>
    have hdiv : (a :: b :: c :: d :: rest).length / 4 = rest.length / 4 + 1 := by simp [Nat.add_assoc]
    rw [hdiv, pushSequence, List.take_succ_cons]
    exact List.forall_mem_cons.2 ⟨rfl, ih⟩

/-- Settles O59, by the recursion of the expansion: four bytes at a time, and at most three left. -/
theorem pushSequencePushesItsBytes : Obligations.PushSequencePushesItsBytes := fun m =>
  ⟨pushSequence_flatMap m, pushSequence_length m, pushSequence_pushes m, pushSequence_take_push4 m⟩

end Sys2Proof.Machine
end

section
/-! SUPPORT. Well-formed source commands are the commands as they are written (30_encoding.md R72). -/

namespace Sys2Proof

open Sys2Proof.Machine

/-- The width of the field an operand of this kind goes to (30_encoding.md R61). -/
def OperandKind.width : OperandKind → Nat
  | .byte => 8
  | .wordIndex => 3
  | .byteIndex => 5

theorem OperandKind.limit_eq (k : OperandKind) : k.limit = 2 ^ k.width := by
  cases k <;> rfl

/-- As many operands as kinds, each below the limit of its kind. -/
abbrev OperandsFit : List Nat → List OperandKind → Prop := List.Forall₂ fun n k => n < k.limit

theorem SourceCommand.wf_iff (c : SourceCommand) :
    c.wf = true ↔ ∃ ks, operandKinds c.mnemonic = some ks ∧ OperandsFit c.operands ks := by
  simp only [wf, knownMnemonic, countOk, rangeOk, kinds, List.forall₂_iff_zip]
  cases operandKinds c.mnemonic <;> simp

/-- An operand in range is the value of its field. -/
theorem OperandsFit.of_cons {k : OperandKind} {ks : List OperandKind} {ops : List Nat} (h : OperandsFit ops (k :: ks)) :
    ∃ (b : BitVec k.width) (rest : List Nat), OperandsFit rest ks ∧ ops = b.toNat :: rest := by
  obtain ⟨n, rest, hn, hrest, rfl⟩ := List.forall₂_cons_right_iff.1 h
  refine ⟨BitVec.ofNat _ n, rest, hrest, ?_⟩
  rw [BitVec.toNat_ofNat, Nat.mod_eq_of_lt (k.limit_eq ▸ hn)]

/-- Operands that fit a mnemonic's kinds make it a command as it is written: one case for each row of R72. -/
theorem exists_sourceOf {m : List Char} {ks : List OperandKind} {ops : List Nat} (h : operandKinds m = some ks)
    (hops : OperandsFit ops ks) : ∃ i, sourceOf i = ⟨m, ops⟩ := by
  unfold operandKinds at h
  obtain ⟨rfl, ⟨⟩⟩ | ⟨-, h⟩ := ite_eq_iff.1 h
  · cases hops
    exact ⟨.nop, rfl⟩
  obtain ⟨rfl, ⟨⟩⟩ | ⟨-, h⟩ := ite_eq_iff.1 h
  · cases hops
    exact ⟨.init, rfl⟩
  obtain ⟨rfl, ⟨⟩⟩ | ⟨-, h⟩ := ite_eq_iff.1 h
  · obtain ⟨b0, _, ⟨⟩, rfl⟩ := hops.of_cons
    exact ⟨.push1 b0, rfl⟩
  obtain ⟨rfl, ⟨⟩⟩ | ⟨-, h⟩ := ite_eq_iff.1 h
  · obtain ⟨b0, _, h1, rfl⟩ := hops.of_cons
    obtain ⟨b1, _, ⟨⟩, rfl⟩ := h1.of_cons
    exact ⟨.push2 b0 b1, rfl⟩
  obtain ⟨rfl, ⟨⟩⟩ | ⟨-, h⟩ := ite_eq_iff.1 h
  · obtain ⟨b0, _, h1, rfl⟩ := hops.of_cons
    obtain ⟨b1, _, h2, rfl⟩ := h1.of_cons
    obtain ⟨b2, _, ⟨⟩, rfl⟩ := h2.of_cons
    exact ⟨.push3 b0 b1 b2, rfl⟩
  obtain ⟨rfl, ⟨⟩⟩ | ⟨-, h⟩ := ite_eq_iff.1 h
  · obtain ⟨b0, _, h1, rfl⟩ := hops.of_cons
    obtain ⟨b1, _, h2, rfl⟩ := h1.of_cons
    obtain ⟨b2, _, h3, rfl⟩ := h2.of_cons
    obtain ⟨b3, _, ⟨⟩, rfl⟩ := h3.of_cons
    exact ⟨.push4 b0 b1 b2 b3, rfl⟩
  obtain ⟨rfl, ⟨⟩⟩ | ⟨-, h⟩ := ite_eq_iff.1 h
  · cases hops
    exact ⟨.final, rfl⟩
  obtain ⟨rfl, ⟨⟩⟩ | ⟨-, h⟩ := ite_eq_iff.1 h
  · obtain ⟨k, _, ⟨⟩, rfl⟩ := hops.of_cons
    exact ⟨.rdword k, rfl⟩
  obtain ⟨rfl, ⟨⟩⟩ | ⟨-, h⟩ := ite_eq_iff.1 h
  · obtain ⟨n, _, ⟨⟩, rfl⟩ := hops.of_cons
    exact ⟨.rdbyte n, rfl⟩
  obtain ⟨rfl, ⟨⟩⟩ | ⟨-, h⟩ := ite_eq_iff.1 h
  · cases hops
    exact ⟨.rdstat, rfl⟩
  obtain ⟨rfl, ⟨⟩⟩ | ⟨-, h⟩ := ite_eq_iff.1 h
  · cases hops
    exact ⟨.rdlenlo, rfl⟩
  obtain ⟨rfl, ⟨⟩⟩ | ⟨-, h⟩ := ite_eq_iff.1 h
  · cases hops
    exact ⟨.rdlenhi, rfl⟩
  cases h

theorem sourceOf_wf (i : Instr) : (sourceOf i).wf = true := by
  rw [SourceCommand.wf_iff]
  cases i with
  | nop | init | final | rdstat | rdlenlo | rdlenhi => exact ⟨[], rfl, .nil⟩
  | push1 b0 => exact ⟨_, rfl, .cons b0.isLt .nil⟩
  | push2 b0 b1 => exact ⟨_, rfl, .cons b0.isLt (.cons b1.isLt .nil)⟩
  | push3 b0 b1 b2 => exact ⟨_, rfl, .cons b0.isLt (.cons b1.isLt (.cons b2.isLt .nil))⟩
  | push4 b0 b1 b2 b3 => exact ⟨_, rfl, .cons b0.isLt (.cons b1.isLt (.cons b2.isLt (.cons b3.isLt .nil)))⟩
  | rdword k => exact ⟨_, rfl, .cons k.isLt .nil⟩
  | rdbyte n => exact ⟨_, rfl, .cons n.isLt .nil⟩

theorem instrOf_sourceOf (i : Instr) : instrOf (sourceOf i).mnemonic (sourceOf i).operands = some i := by
  cases i <;> simp [sourceOf, instrOf]

/-- The assembler's checks are those of well-formedness. -/
theorem assembleCommand_ok_iff {c : SourceCommand} {i : Instr} :
    assembleCommand c = .ok i ↔ c.wf = true ∧ instrOf c.mnemonic c.operands = some i := by
  cases hk : c.knownMnemonic with
  | false => simp [assembleCommand, SourceCommand.wf, hk]
  | true =>
    cases hc : c.countOk with
    | false => simp [assembleCommand, SourceCommand.wf, hk, hc]
    | true =>
      cases hr : c.rangeOk with
      | false => simp [assembleCommand, SourceCommand.wf, hk, hc, hr]
      | true => cases hi : instrOf c.mnemonic c.operands <;> simp [assembleCommand, SourceCommand.wf, hk, hc, hr, hi]

theorem assembleCommand_sourceOf (i : Instr) : assembleCommand (sourceOf i) = .ok i :=
  assembleCommand_ok_iff.2 ⟨sourceOf_wf i, instrOf_sourceOf i⟩

theorem SourceCommand.wf_iff_exists_sourceOf (c : SourceCommand) : c.wf = true ↔ ∃ i, sourceOf i = c := by
  constructor
  · intro h
    obtain ⟨ks, hks, hops⟩ := c.wf_iff.1 h
    exact exists_sourceOf hks hops
  · rintro ⟨i, rfl⟩
    exact sourceOf_wf i

/-- Settles O58: a source command that is well formed, or assembles, is a command as it is written, and that assembles
to the command. -/
theorem assemblerAcceptsTheForms : Obligations.AssemblerAcceptsTheForms := by
  refine ⟨fun i => ⟨sourceOf_wf i, assembleCommand_sourceOf i⟩, fun c => ⟨?accepted, ?wellFormed⟩, fun c i h => ?form⟩
  case accepted =>
    rintro ⟨i, h⟩
    exact (assembleCommand_ok_iff.1 h).1
  case wellFormed =>
    intro h
    obtain ⟨i, rfl⟩ := c.wf_iff_exists_sourceOf.1 h
    exact ⟨i, assembleCommand_sourceOf i⟩
  case form =>
    obtain ⟨j, rfl⟩ := c.wf_iff_exists_sourceOf.1 (assembleCommand_ok_iff.1 h).1
    exact congrArg sourceOf (Except.ok.inj (h.symm.trans (assembleCommand_sourceOf j)))

end Sys2Proof
end

section
/-! SUPPORT. A run of PUSH words, alone and closed by FINAL, by the bytes it pushes (41_padder.md R91, R92). -/

namespace Sys2Proof.Machine

/-- Settles O28: each run absorbs its bytes in order, and the two runs carry the same bytes. -/
theorem splitOfPushesDoesNotMatter : Obligations.SplitOfPushesDoesNotMatter := by
  intro s ws ws' hs hws hws' hbytes
  obtain ⟨t, rs, hrun, ht⟩ := AcceptedRun.of_pushes hws hs
  obtain ⟨t', rs', hrun', ht'⟩ := AcceptedRun.of_pushes hws' hs
  exact ⟨t, t', rs, rs', hrun.run, hrun'.run, by rw [ht, ht', hbytes]⟩

/-- A core that absorbs and has taken no byte, with `IV` in `H`, holds the empty message (10_state.md R35). -/
theorem CoreState.holds_nil {c : CoreState} (hp : c.phase = .absorb) (hbuf : c.bufLen = 0) (hlen : c.len = 0)
    (hh : c.h = iv) : c.Holds [] :=
  ⟨hp, hlen, List.eq_nil_of_length_eq_zero hbuf, hh⟩

/-- PUSH words and then FINAL digest the message held, lengthened by the bytes pushed, and leave the error bits. -/
theorem AcceptedRun.of_pushes_final {ws : List CommandWord} (hws : ∀ w ∈ ws, pushedBytes w ≠ [])
    {fin : CommandWord} (hfin : decode fin = .ok .final) {s : State} {m : List Byte} (hs : s.core.Holds m) :
    ∃ t rs, AcceptedRun (ws ++ [fin]) s t rs ∧ t.core.Digested (m ++ ws.flatMap pushedBytes) ∧
      t.core.err = s.core.err ∧ t.core.errCode = s.core.errCode := by
  obtain ⟨u, rs, hpush, hu⟩ := AcceptedRun.of_pushes hws hs.1
  have hholds : u.core.Holds (m ++ ws.flatMap pushedBytes) := hu ▸ hs.absorbBytes _
  obtain ⟨t, hfinal, ht⟩ := AcceptedRun.of_accept ((runCommand_ok hfin u).trans (execFinal_absorb hholds.1))
  exact ⟨t, _, hpush.append hfinal, ht ▸ hholds.finalize, by simp [ht, hu], by simp [ht, hu]⟩

/-- Settles O31: the core starts with the empty message, so the run digests the bytes it pushes. -/
theorem pushesThenFinalHashTheMessage : Obligations.PushesThenFinalHashTheMessage := by
  rintro s ws fin m hp hbuf hlen hh hws rfl hfin
  obtain ⟨t, rs, hrun, ⟨hdone, -, hdigest⟩, herr, hcode⟩ :=
    AcceptedRun.of_pushes_final hws hfin (CoreState.holds_nil hp hbuf hlen hh)
  rw [List.nil_append] at hdigest
  exact ⟨t, rs, hrun.run, hdone, hdigest, congrArg serialize hdigest, by simp [hrun.length], hrun.ok, herr, hcode⟩

end Sys2Proof.Machine
end

section
/-! SUPPORT. The padded message as one byte sequence and as blocks: its bytes, its number of blocks and its number of
zero bytes (41_padder.md R80, R82, R89). -/

namespace Sys2Proof.Machine

/-- Settles O20: the two layouts, and the tail is cut into whole blocks. -/
theorem padTailLayout : Obligations.PadTailLayout := fun _ l =>
  ⟨padTail_of_le l, padTail_of_ge l, fun h _ hb => length_of_mem_padTail h hb⟩

theorem fullBlocks_length (m : List Byte) : (fullBlocks m).length = m.length / 64 := by
  simp [fullBlocks]

theorem length_of_mem_fullBlocks {m b : List Byte} (hb : b ∈ fullBlocks m) : b.length = 64 := by
  obtain ⟨q, hq, rfl⟩ := List.mem_map.1 hb
  have hlt := List.mem_range.1 hq
  rw [slice_length]
  omega

theorem partialWindow_length_le (m : List Byte) : (partialWindow m).length ≤ 63 := by
  rw [partialWindow_length]
  omega

theorem length_of_mem_pad {m b : List Byte} (hb : b ∈ pad m) : b.length = 64 := by
  obtain hb | hb := List.mem_append.1 hb
  · exact length_of_mem_fullBlocks hb
  · exact length_of_mem_padTail (partialWindow_length_le m) hb

/-- The blocks of the tail, put together, are the padded tail. -/
theorem padTail_flatten {t : List Byte} (l : BitVec 64) (h : t.length ≤ 63) :
    (padTail t l).flatten = paddedTail t l := by
  have hlen := paddedTail_length l h
  unfold padTail
  split
  · rw [if_pos ‹_›] at hlen
    simp [slice, hlen]
  · rw [if_neg ‹_›] at hlen
    simp [slice, List.take_of_length_le hlen.le]

/-- The blocks of the padded message, put together (41_padder.md R80). -/
theorem pad_flatten (m : List Byte) :
    (pad m).flatten = m ++ [0x80] ++ zeros (zeroCount (m.length % 64)) ++ be64 (bitLen m.length) := by
  rw [pad, List.flatten_append, padTail_flatten _ (partialWindow_length_le m), paddedTail, partialWindow_length]
  simp only [← List.append_assoc]
  rw [fullBlocks_append_partialWindow]
  rfl

/-- The full windows come first, unchanged. -/
theorem pad_getElem?_of_lt {m : List Byte} {q : Nat} (hq : q < m.length / 64) :
    (pad m)[q]? = some ((m.drop (64 * q)).take 64) := by
  rw [pad, List.getElem?_append_left (by rwa [fullBlocks_length]), fullBlocks_eq_map]
  simp [hq]

theorem zeroCount_cast (r : Nat) : (zeroCount r : Int) = (55 - (r : Int)) % 64 := by
  unfold zeroCount
  omega

/-- No fewer zero bytes make whole blocks. -/
theorem zeroCount_le_of_mod_eq_zero {n z : Nat} (h : (n + 1 + z + 8) % 64 = 0) : zeroCount (n % 64) ≤ z := by
  have hcast := zeroCount_cast (n % 64)
  omega

/-- Settles O22: the padded bytes are those of `pad_flatten`, with `zeroCount` zeros. -/
theorem paddedMessageMeetsTheContract : Obligations.PaddedMessageMeetsTheContract := fun m =>
  ⟨fun _ hb => length_of_mem_pad hb, fun _ hq => pad_getElem?_of_lt hq, zeroCount (m.length % 64), pad_flatten m,
    fun _ h => zeroCount_le_of_mod_eq_zero h⟩

theorem pad_length (m : List Byte) : (pad m).length = m.length / 64 + if m.length % 64 ≤ 55 then 1 else 2 := by
  rw [pad, List.length_append, fullBlocks_length, padTail_length, partialWindow_length]

/-- The same number of blocks, without the two cases (41_padder.md R89). -/
theorem pad_length_eq_div (m : List Byte) : (pad m).length = (m.length + 8) / 64 + 1 := by
  rw [pad_length]
  split <;> omega

/-- Settles O23: the counts are `pad_length` in its two cases and in closed form, the zero bytes those of
`pad_flatten`. -/
theorem paddedBlockCount : Obligations.PaddedBlockCount := by
  intro m
  have hblocks := pad_length m
  have hclosed := pad_length_eq_div m
  have hzeros := zeroCount_cast (m.length % 64)
  refine ⟨fun h => by rw [hblocks, if_pos h], fun h => by rw [hblocks, if_neg (by omega)], hclosed,
    ⟨zeroCount (m.length % 64), by omega, hzeros, ?_⟩, by omega, by omega⟩
  simp [pad_flatten]
  omega

end Sys2Proof.Machine
end

section
/-! SUPPORT. The padder's commands: a PUSH of at most one window's bytes, and FINAL with its length field (41_padder.md
R81, R83 to R88). -/

namespace Sys2Proof.Machine

/-- Settles O24: multiplication by 8 is modulo 2^64, on the counter as on the number of bytes. -/
theorem lengthFieldIsTheBitLength : Obligations.LengthFieldIsTheBitLength := by
  intro n c hc
  have hbits : lengthField c = bitLen n := by rw [lengthField, hc, bitLen_eq_mul]
  refine ⟨hbits, ?shift, by rw [hbits, bitLen, BitVec.toNat_ofNat]⟩
  case shift =>
    rw [BitVec.shiftLeft_eq_mul_twoPow]
    rfl

/-- Bytes that reach the end of the window, at most one window of them: those that fill it are compressed with it, and
the rest start the next one (41_padder.md R84 to R87). -/
theorem absorbBytes_of_ge {bs : List Byte} {c : CoreState} (hc : c.buf.length < 64) (hbs : bs.length ≤ 64)
    (h : 64 ≤ c.buf.length + bs.length) :
    absorbBytes bs c =
      { c with
        h := compressBlock c.h ((c.buf ++ bs).take 64)
        buf := (c.buf ++ bs).drop 64
        len := c.len + BitVec.ofNat 64 bs.length } := by
  obtain ⟨front, rest, rfl, hfront⟩ : ∃ front rest, bs = front ++ rest ∧ c.buf.length + front.length = 64 :=
    ⟨bs.take (64 - c.buf.length), bs.drop (64 - c.buf.length), by simp, by simp; omega⟩
  have hwindow : (c.buf ++ front).length = 64 := by simpa using hfront
  rw [List.length_append] at hbs
  rw [absorbBytes_append, absorbBytes_of_full front c hc hfront, absorbBytes_of_lt rest _ (by simp; omega),
    ← List.append_assoc, List.take_left' hwindow, List.drop_left' hwindow]
  simp [BitVec.add_assoc, BitVec.ofNat_add]

/-- Settles O25: each of the four is a push of its bytes, which leave room in the window or reach its end. -/
theorem pushAppendsItsBytes : Obligations.PushAppendsItsBytes := by
  intro b0 b1 b2 b3 op i bs hmem
  obtain ⟨hdecode, rfl, hne⟩ :
      decode (commandWord op (argOfBytes b0 b1 b2 b3)) = .ok i ∧ i.pushBytes = bs ∧ i.pushBytes ≠ [] := by
    simp only [List.mem_cons, Prod.mk.injEq, List.not_mem_nil, or_false] at hmem
    obtain ⟨rfl, rfl, rfl⟩ | ⟨rfl, rfl, rfl⟩ | ⟨rfl, rfl, rfl⟩ | ⟨rfl, rfl, rfl⟩ := hmem <;>
      simp [Instr.pushBytes]
  have hbytes : i.pushBytes.length ≤ 4 := pushBytes_length_le i
  refine ⟨hdecode, fun s => ⟨fun hp => ?done, fun hp hbuf => ?absorb⟩⟩ <;> rw [exec_push hne]
  case done => exact pushCommand_done hp
  case absorb =>
    rw [CoreState.bufLen_eq] at hbuf ⊢
    rw [pushCommand_absorb hp]
    split
    · rw [absorbBytes_of_lt _ _ ‹_›]
      rfl
    · rw [absorbBytes_of_ge (by omega) (by omega) (by omega)]
      rfl

theorem finalize_eq (c : CoreState) :
    finalize c =
      { c with h := (padTail c.buf (lengthField c)).foldl compressBlock c.h, buf := [], phase := .done } := by
  rw [finalize, processBlocks_eq]

theorem lengthField_eq_ofNat (c : CoreState) : lengthField c = BitVec.ofNat 64 (c.len.toNat * 8) := by
  rw [lengthField, BitVec.ofNat_mul, BitVec.ofNat_toNat, BitVec.setWidth_eq]
  rfl

/-- Settles O29: FINAL by the phase alone, and the number of tail blocks by `BUF_LEN`. -/
theorem finalPadsAndFinishes : Obligations.FinalPadsAndFinishes := by
  refine ⟨fun arg => by simp, fun s => ⟨execFinal_done, fun hp => ?absorb,
    fun h => (padTail_length _).trans (if_pos h), fun h => (padTail_length _).trans (if_neg (Nat.not_le.2 h))⟩⟩
  case absorb =>
    rw [← lengthField_eq_ofNat]
    exact (execFinal_absorb hp).trans (by rw [finalize_eq]; rfl)

end Sys2Proof.Machine
end

section
/-! SUPPORT. The message schedule word by word, and the rolling sixteen-word window that computes it (42_scheduler.md
R100 to R104). -/

namespace Sys2Proof.Machine

/-- A word of the schedule is the one of every prefix that reaches it. -/
theorem schedule_getD_eq_prefix (blk : List Byte) {n i : Nat} (hn : i < 16 + n) (hi : i < 64) :
    (schedule blk).getD i 0 = (schedulePrefix blk n).getD i 0 := by
  rw [schedule_eq_prefix]
  obtain h | h := Nat.le_total n 48
  · exact schedulePrefix_getD_of_le blk h hn
  · exact (schedulePrefix_getD_of_le blk h (by omega)).symm

/-- The recurrence looks back sixteen words at most, so words dropped before those do not matter. -/
theorem scheduleWord_drop (w : List Word) (n : Nat) {t : Nat} (h : 16 ≤ t) :
    scheduleWord (w.drop n) t = scheduleWord w (n + t) := by
  have hget : ∀ k, k ≤ t → (w.drop n).getD (t - k) 0 = w.getD (n + t - k) 0 := by
    intro k hk
    rw [List.getD_eq_getElem?_getD, List.getElem?_drop, ← Nat.add_sub_assoc hk, ← List.getD_eq_getElem?_getD]
  rw [scheduleWord, hget 2 (by omega), hget 7 (by omega), hget 15 (by omega), hget 16 h, scheduleWord]

/-- The rolling window's first `n` rounds are those over the whole schedule, and they leave the window at `W[n..n+15]`
(42_scheduler.md R104). -/
theorem rollingRounds_eq (h : Vector Word 8) (blk : List Byte) {n : Nat} (hn : n ≤ 64) :
    (List.range n).foldl (fun p t => rollingRound t p) (blockWords blk, Working.ofState h) =
      ((schedulePrefix blk n).drop n,
        (List.range n).foldl (fun v t => roundStep (kTable.getD t 0) ((schedule blk).getD t 0) v)
          (Working.ofState h)) := by
  induction n with
  | zero => rfl
  | succ n ih =>
    have holdest : ((schedulePrefix blk n).drop n).getD 0 0 = (schedule blk).getD n 0 := by
      rw [schedule_getD_eq_prefix blk (show n < 16 + n by omega) (by omega)]
      simp [List.getD_eq_getElem?_getD]
    have hwindow : ((schedulePrefix blk n).drop n).drop 1 ++ [scheduleWord ((schedulePrefix blk n).drop n) 16] =
        (schedulePrefix blk (n + 1)).drop (n + 1) := by
      rw [scheduleWord_drop _ _ le_rfl, List.drop_drop, schedulePrefix_succ, Nat.add_comm n 16,
        List.drop_append_of_le_length (by rw [schedulePrefix_length]; omega)]
    rw [List.range_succ, List.foldl_append, List.foldl_append, ih (by omega)]
    simp only [List.foldl_cons, List.foldl_nil]
    rw [rollingRound, holdest, hwindow]

/-- Settles O14: after 64 rounds the working variables are the same, by `rollingRounds_eq`. -/
theorem rollingScheduleGivesTheSameState : Obligations.RollingScheduleGivesTheSameState := by
  intro h blk
  rw [compressRolling, rollingRounds_eq h blk le_rfl, compress]

/-- The bytes of a big-endian word are the four that it was read from. -/
theorem bytes32_be32_eq_take {s : List Byte} {i : Nat} (h : i + 4 ≤ s.length) :
    bytes32 (be32 s i) = (s.drop i).take 4 := by
  rw [bytes32_be32]
  refine List.ext_getElem (by simp; omega) fun j hj _ => ?_
  rw [List.getElem_take, List.getElem_drop]
  obtain rfl | rfl | rfl | rfl : j = 0 ∨ j = 1 ∨ j = 2 ∨ j = 3 := by simp at hj; omega
  all_goals exact List.getD_eq_getElem _ _ (by omega)

/-- Settles O11: word `i` of the schedule is the block's big-endian word at `4i`, which keeps its four bytes. -/
theorem scheduleStartsWithTheBlock : Obligations.ScheduleStartsWithTheBlock := by
  intro blk hblk
  refine ⟨schedule_length blk, fun i hi => ⟨schedule_getElem?_of_lt blk hi, ?_⟩⟩
  rw [List.getD_eq_getElem?_getD, schedule_getElem?_of_lt blk hi, Option.getD_some, bytes32_be32_eq_take (by omega)]

/-- Settles O12: `W[t]` was computed from the prefix before it, and those words stay. -/
theorem scheduleFollowsTheRecurrence : Obligations.ScheduleFollowsTheRecurrence := by
  intro blk t ht ht'
  obtain ⟨n, rfl⟩ := Nat.exists_eq_add_of_le ht
  have hprev : ∀ k, 1 ≤ k → (schedule blk).getD (16 + n - k) 0 = (schedulePrefix blk n).getD (16 + n - k) 0 :=
    fun k hk => schedule_getD_eq_prefix blk (by omega) (by omega)
  rw [schedule_getD_eq_prefix blk (show 16 + n < 16 + (n + 1) by omega) ht', schedulePrefix_getD_last, scheduleWord,
    hprev 2 (by omega), hprev 7 (by omega), hprev 15 (by omega), hprev 16 (by omega)]

end Sys2Proof.Machine
end

section
/-! SUPPORT. The word functions of the scheduler and of the rounds (42_scheduler.md R102, R103, 43_compressor.md R114,
R115). -/

namespace Sys2Proof.Machine

/-- Settles O10: every rotation is by less than 32, and the corner values are computed. -/
theorem gammaAndSigmaAreRotationSums : Obligations.GammaAndSigmaAreRotationSums := by
  refine ⟨fun x => ?sums, by decide⟩
  case sums =>
    simp only [← rotr_eq_rotateRight, Nat.reduceLT]
    exact ⟨rfl, rfl, rfl, rfl⟩

end Sys2Proof.Machine
end

section
/-! SUPPORT. `Compress` round by round, and `ch` and `maj` bit by bit (43_compressor.md R110 to R117, R120). -/

namespace Sys2Proof.Machine

/-- The working variables before round `n`, after rounds `0` to `n - 1` of `Compress(H, W)` (43_compressor.md R110). -/
def workingBefore (h : Vector Word 8) (w : List Word) (n : Nat) : Working :=
  (List.range n).foldl (fun v t => roundStep (kTable.getD t 0) (w.getD t 0) v) (Working.ofState h)

theorem workingBefore_succ (h : Vector Word 8) (w : List Word) (n : Nat) :
    workingBefore h w (n + 1) = roundStep (kTable.getD n 0) (w.getD n 0) (workingBefore h w n) := by
  simp [workingBefore, List.range_succ]

theorem compress_eq_feedForward (h : Vector Word 8) (w : List Word) :
    compress h w = feedForward h (workingBefore h w 64) := rfl

/-- Settles O16: the sequence is `workingBefore`, and the feed-forward adds word by word by definition. -/
theorem compressRunsSixtyFourRounds : Obligations.CompressRunsSixtyFourRounds := by
  intro h w _
  refine ⟨workingBefore h w, rfl, fun t _ => workingBefore_succ h w t, ?feedForward⟩
  case feedForward =>
    rw [compress_eq_feedForward]
    exact ⟨rfl, rfl, rfl, rfl, rfl, rfl, rfl, rfl⟩

/-- Each bit of `x` chooses (43_compressor.md R116). -/
theorem ch_getLsbD (x y z : Word) (i : Nat) :
    (ch x y z).getLsbD i = if x.getLsbD i then y.getLsbD i else z.getLsbD i := by
  by_cases hi : i < 32
  · rw [ch, BitVec.getLsbD_xor, BitVec.getLsbD_and, BitVec.getLsbD_and, BitVec.getLsbD_not]
    cases x.getLsbD i <;> simp [hi]
  · simp [ch, hi, BitVec.getLsbD_of_ge y i (by omega), BitVec.getLsbD_of_ge z i (by omega)]

/-- Each bit is 1 when at least two of the three are (43_compressor.md R117). -/
theorem maj_getLsbD (x y z : Word) (i : Nat) :
    (maj x y z).getLsbD i =
      decide (2 ≤ (x.getLsbD i).toNat + (y.getLsbD i).toNat + (z.getLsbD i).toNat) := by
  simp only [maj, BitVec.getLsbD_xor, BitVec.getLsbD_and]
  generalize x.getLsbD i = a, y.getLsbD i = b, z.getLsbD i = c
  revert a b c
  decide

/-- Settles O9: the formulas are the definitions, and the bits are those of `ch_getLsbD` and `maj_getLsbD`. -/
theorem chChoosesAndMajVotes : Obligations.ChChoosesAndMajVotes := fun x y z =>
  ⟨rfl, rfl, fun i => ⟨ch_getLsbD x y z i, maj_getLsbD x y z i⟩⟩

/-- Settles O15: the assignment is the definition, and the values of round 0 are computed. -/
theorem roundIsOneSimultaneousAssignment : Obligations.RoundIsOneSimultaneousAssignment :=
  ⟨fun _ _ _ => rfl, by decide⟩

end Sys2Proof.Machine
end

section
/-! SUPPORT. The round constants as cube roots of the first 64 primes (43_compressor.md R118, R119). -/

namespace Sys2Proof.Machine

/-- A number between `n` and `(n + 1)^2` is prime when it has no factor up to `n`. -/
theorem prime_iff_coprime_factorial {n p : Nat} (h1 : p ≠ 1) (hn : n < p) (hp : p < (n + 1) ^ 2) :
    p.Prime ↔ p.Coprime n.factorial := by
  rw [Nat.coprime_factorial_iff h1]
  refine ⟨fun h => h.minFac_eq.symm ▸ hn, fun h => by_contra fun hprime => ?_⟩
  exact absurd ((Nat.minFac_sq_le_self (by omega) hprime).trans_lt hp) (Nat.pow_le_pow_left h 2).not_gt

/-- The primes R119 lists are those below 312, in increasing order. As 312 is below `18^2`, coprimality to `17!` tells
them apart at a fraction of the cost of computing `Nat.Prime`. -/
theorem kPrimes_eq_filter : kPrimes = (List.range 312).filter Nat.Prime := by
  calc
    kPrimes = (List.range 312).filter fun p => if p ≤ 17 then p.Prime else p.Coprime (Nat.factorial 17) := by
      decide +kernel
    _ = (List.range 312).filter Nat.Prime := by
      refine List.filter_congr fun p hp => ?_
      have hlt := List.mem_range.1 hp
      split
      · rfl
      · exact decide_eq_decide.2 (prime_iff_coprime_factorial (by omega) (by omega) (by omega)).symm

theorem mem_kPrimes_iff (p : Nat) : p ∈ kPrimes ↔ p.Prime ∧ p ≤ 311 := by
  rw [kPrimes_eq_filter, List.mem_filter, List.mem_range, decide_eq_true_iff, and_comm, Nat.lt_succ_iff]

theorem kPrimes_pairwise_lt : kPrimes.Pairwise (· < ·) :=
  kPrimes_eq_filter ▸ List.pairwise_lt_range.filter _

/-- The cube root of `p_t` as a fixed-point number: its integer part, then `K[t]` as the 32 bits of its fraction
(43_compressor.md R118). -/
def fixedCubeRoot (t : Nat) : Nat := Nat.nthRoot 3 (kPrimes.getD t 0) * 2 ^ 32 + (kTable.getD t 0).toNat

theorem fixedCubeRoot_mod (t : Nat) : fixedCubeRoot t % 2 ^ 32 = (kTable.getD t 0).toNat :=
  Nat.mul_add_mod_of_lt (kTable.getD t 0).isLt

/-- It is the integer cube root of `p_t * 2^96`: computed, constant by constant. -/
theorem fixedCubeRoot_bounds :
    ∀ t < 64, fixedCubeRoot t ^ 3 ≤ kPrimes.getD t 0 * 2 ^ 96 ∧
      kPrimes.getD t 0 * 2 ^ 96 < (fixedCubeRoot t + 1) ^ 3 := by
  decide

/-- Settles O17: the table of primes is `kPrimes_eq_filter`, and each `r` is `fixedCubeRoot t`. -/
theorem roundConstantsAreCubeRootFractions : Obligations.RoundConstantsAreCubeRootFractions := by
  refine ⟨kTable_length, kPrimes_length, kPrimes_pairwise_lt, mem_kPrimes_iff, fun t ht => ?root⟩
  case root =>
    obtain ⟨hle, hlt⟩ := fixedCubeRoot_bounds t ht
    exact ⟨fixedCubeRoot t, hle, hlt, (fixedCubeRoot_mod t).symm⟩

end Sys2Proof.Machine
end

section
/-! SUPPORT. Two cores that differ in `H` alone: every operation of the commands keeps that, and only the digest reads
look at `H` (44_serializer.md R133). -/

namespace Sys2Proof.Machine

/-- The two cores agree in every field but `H`. -/
structure CoreState.SameButH (c c' : CoreState) : Prop where
  buf : c.buf = c'.buf
  phase : c.phase = c'.phase
  len : c.len = c'.len
  err : c.err = c'.err
  errCode : c.errCode = c'.errCode

namespace CoreState.SameButH

theorem refl (c : CoreState) : SameButH c c := ⟨rfl, rfl, rfl, rfl, rfl⟩

theorem withH (c : CoreState) (h : Vector Word 8) : SameButH c { c with h := h } := ⟨rfl, rfl, rfl, rfl, rfl⟩

variable {c c' : CoreState} (hc : SameButH c c')
include hc

theorem withH_eq (h : Vector Word 8) : { c with h := h } = { c' with h := h } := by
  obtain ⟨hbuf, hphase, hlen, herr, hcode⟩ := hc
  simp only [hbuf, hphase, hlen, herr, hcode]

theorem statusWord_eq : statusWord c = statusWord c' := by
  obtain ⟨hbuf, hphase, -, herr, hcode⟩ := hc
  simp only [statusWord, CoreState.bufLen_eq, hbuf, hphase, herr, hcode]

theorem recordError (e : ErrCode) : SameButH (recordError e c) (recordError e c') where
  buf := hc.buf
  phase := hc.phase
  len := hc.len
  err := rfl
  errCode := by simp only [recordError_errCode, hc.err, hc.errCode]

/-- Whether the window is full, and so compressed, is decided by `BUF` alone. -/
theorem absorbByte_buf (b : Byte) : (absorbByte c b).buf = (absorbByte c' b).buf := by
  obtain ⟨hroom, h⟩ | ⟨hfull, h⟩ := absorbByte_cases c b <;>
    obtain ⟨hroom', h'⟩ | ⟨hfull', h'⟩ := absorbByte_cases c' b
  · simp [h, h', hc.buf]
  · exact absurd (hc.buf ▸ hfull') hroom
  · exact absurd (hc.buf ▸ hfull) hroom'
  · rw [h, h']

theorem absorbByte (b : Byte) : SameButH (absorbByte c b) (absorbByte c' b) where
  buf := hc.absorbByte_buf b
  phase := by simpa using hc.phase
  len := by simp [hc.len]
  err := by simpa using hc.err
  errCode := by simpa using hc.errCode

theorem absorbBytes (bs : List Byte) : SameButH (absorbBytes bs c) (absorbBytes bs c') := by
  induction bs generalizing c c' with
  | nil => exact hc
  | cons b bs ih => exact ih (hc.absorbByte b)

theorem finalize : SameButH (finalize c) (finalize c') where
  buf := rfl
  phase := rfl
  len := by simpa using hc.len
  err := by simpa using hc.err
  errCode := by simpa using hc.errCode

end CoreState.SameButH

open CoreState (SameButH)

/-- The two outcomes are next states that show the host the same and agree in every field of the core but `H`. -/
def AgreeButH (o o' : Host.Outcome State Fault Refusal) : Prop :=
  ∃ t t' : State, o = .next t ∧ o' = .next t' ∧ t.rsp = t'.rsp ∧ t.inputs = t'.inputs ∧ SameButH t.core t'.core

section

variable {s s' : State} (hin : s.inputs = s'.inputs)
include hin

theorem accept_agreeButH {c c' : CoreState} (hc : SameButH c c') (d : Word) :
    AgreeButH (accept c d s) (accept c' d s') :=
  ⟨_, _, rfl, rfl, rfl, hin, hc⟩

theorem reject_agreeButH (hc : SameButH s.core s'.core) (e : ErrCode) : AgreeButH (reject e s) (reject e s') :=
  ⟨_, _, rfl, rfl, rfl, hin, hc.recordError e⟩

/-- A command that is no accepted digest read answers without looking at `H`. -/
theorem exec_agreeButH (hc : SameButH s.core s'.core) {i : Instr}
    (hi : s.core.phase = .absorb ∨ ((∀ k, i ≠ .rdword k) ∧ ∀ n, i ≠ .rdbyte n)) :
    AgreeButH (exec i s) (exec i s') := by
  rw [exec_eq, exec_eq, ← hc.phase]
  by_cases ha : acceptedIn i s.core.phase = true
  · rw [if_pos ha, if_pos ha]
    cases i with
    | nop => exact accept_agreeButH hin hc _
    | init => exact accept_agreeButH hin (.refl _) _
    | push1 | push2 | push3 | push4 => exact accept_agreeButH hin (hc.absorbBytes _) _
    | final => exact accept_agreeButH hin hc.finalize _
    | rdword k =>
      obtain hp | ⟨hword, -⟩ := hi
      · simp [acceptedIn, hp] at ha
      · exact absurd rfl (hword k)
    | rdbyte n =>
      obtain hp | ⟨-, hbyte⟩ := hi
      · simp [acceptedIn, hp] at ha
      · exact absurd rfl (hbyte n)
    | rdstat =>
      rw [hc.statusWord_eq]
      exact accept_agreeButH hin hc _
    | rdlenlo | rdlenhi =>
      rw [hc.len]
      exact accept_agreeButH hin hc _
  · rw [if_neg ha, if_neg ha]
    exact reject_agreeButH hin hc _

theorem runCommand_agreeButH (hc : SameButH s.core s'.core) {w : CommandWord}
    (hw : s.core.phase = .absorb ∨ ((∀ k, decode w ≠ .ok (.rdword k)) ∧ ∀ n, decode w ≠ .ok (.rdbyte n))) :
    AgreeButH (runCommand w s) (runCommand w s') := by
  cases hd : decode w with
  | error e =>
    rw [runCommand_error hd, runCommand_error hd]
    exact reject_agreeButH hin hc _
  | ok i =>
    rw [runCommand_ok hd, runCommand_ok hd]
    simp only [hd, ne_eq, Except.ok.injEq] at hw
    exact exec_agreeButH hin hc hw

end

/-- Settles O36: no operation but a digest read looks at `H`, and an absorbing core rejects the digest reads. -/
theorem chainingValueStaysHidden : Obligations.ChainingValueStaysHidden := by
  refine ⟨fun w s h' hw => ?hidden, fun i s hi hp => ?rejected⟩
  case hidden =>
    obtain ⟨t, t', ht, ht', hrsp, hin, hcore⟩ :=
      runCommand_agreeButH (s := s) (s' := { s with core := { s.core with h := h' } }) rfl (.withH s.core h') hw
    exact ⟨t, t', ht, ht', hrsp, hin, hcore.withH_eq h'⟩
  case rejected =>
    obtain ⟨k, rfl⟩ | ⟨n, rfl⟩ := hi <;> exact ⟨_, readDigest_absorb hp, rfl⟩

end Sys2Proof.Machine
end

section
/-! SUPPORT. The digest byte by byte, and the two digest reads (44_serializer.md R130 to R132). -/

namespace Sys2Proof.Machine

theorem bytes32_getElem? (w : Word) {j : Nat} (hj : j < 4) :
    (bytes32 w)[j]? = some (w.extractLsb' (24 - 8 * j) 8) := by
  have hmap : bytes32 w = (List.range 4).map fun j => w.extractLsb' (24 - 8 * j) 8 := rfl
  rw [hmap, List.getElem?_map, List.getElem?_range hj, Option.map_some]

/-- Byte `4k + j` of the digest is byte `j` of `H[k]`. -/
theorem serialize_getElem? (h : Vector Word 8) {k j : Nat} (hk : k < 8) (hj : j < 4) :
    (serialize h)[4 * k + j]? = some (h[k].extractLsb' (24 - 8 * j) 8) := by
  obtain ⟨before, after, hlen, hsplit⟩ := serialize_split h hk
  rw [hsplit, List.append_assoc, ← hlen, List.getElem?_append_right (Nat.le_add_right ..), Nat.add_sub_cancel_left,
    List.getElem?_append_left hj, bytes32_getElem? _ hj]

/-- Settles O33: byte `i` is byte `i % 4` of `H[i / 4]`. -/
theorem digestIsThirtyTwoBigEndianBytes : Obligations.DigestIsThirtyTwoBigEndianBytes := by
  refine fun h => ⟨serialize_length h, fun i hi => ?_⟩
  have hbyte := serialize_getElem? h (show i / 4 < 8 by omega) (Nat.mod_lt i (show 4 > 0 by decide))
  rwa [Nat.div_add_mod] at hbyte

/-- Settles O34: a digest read goes by the phase, and `H[k]` stands in the digest at offset `4k`. -/
theorem rdwordReadsDigestWord : Obligations.RdwordReadsDigestWord :=
  ⟨fun arg => decode_commandWord 0x40 arg, fun k s => ⟨readDigest_absorb,
    fun hp => ⟨readDigest_done hp, (be32_serialize s.core.h k.isLt).symm⟩⟩⟩

/-- Settles O35: a digest read goes by the phase, and the index of five bits lies inside the 32 bytes. -/
theorem rdbyteReadsDigestByte : Obligations.RdbyteReadsDigestByte := by
  refine ⟨fun arg => decode_commandWord 0x41 arg, fun i s => ⟨readDigest_absorb, fun hp => ?done⟩⟩
  case done =>
    have hi : i.toNat < (serialize s.core.h).length := by
      rw [serialize_length]
      exact i.isLt
    have hbyte : digestByte i s.core = (serialize s.core.h)[i.toNat].setWidth 32 := by
      rw [digestByte, List.getD_eq_getElem _ _ hi]
    exact ⟨_, List.getElem?_eq_getElem hi, hbyte ▸ readDigest_done hp⟩

end Sys2Proof.Machine
end

section
/-! SUPPORT. Where every field stands in STATUS, the two halves of `LEN`, and the control commands (10_state.md R32,
45_control.md R140 to R144). -/

namespace Sys2Proof.Machine

theorem Phase.bit_getLsbD (p : Phase) (n : Nat) : p.bit.getLsbD n = (decide (n = 0) && decide (p = .done)) := by
  cases p <;> simp [Phase.bit]

/-- Bit `n` of STATUS is a bit of the one field that it stands in; bits 4 to 7 and those from 14 are 0. -/
theorem statusWord_getLsbD (c : CoreState) (n : Nat) :
    (statusWord c).getLsbD n =
      if n = 0 then decide (c.phase = .done) else if n = 1 then c.err
      else if n < 4 then c.errCode.bits.getLsbD (n - 2) else if n < 8 then false
      else (BitVec.ofNat 6 c.bufLen).getLsbD (n - 8) := by
  have hcode : 4 ≤ n → c.errCode.bits.getLsbD (n - 2) = false := fun h => BitVec.getLsbD_of_ge _ _ (by omega)
  have hbuf : 32 ≤ n → (BitVec.ofNat 6 c.bufLen).getLsbD (n - 8) = false := fun h =>
    BitVec.getLsbD_of_ge _ _ (by omega)
  simp only [statusWord, BitVec.getLsbD_or, BitVec.getLsbD_shiftLeft, BitVec.getLsbD_setWidth, BitVec.getLsbD_ofBool,
    Phase.bit_getLsbD]
  split_ifs with h0 h1 h4 h8
  · simp [h0]
  · simp [h1]
  · simp [h0, show n - 1 ≠ 0 by omega, show ¬n < 2 by omega, show n < 8 by omega, show n < 32 by omega,
      show n - 2 < 32 by omega]
  · simp [h0, h8, hcode (by omega), show n - 1 ≠ 0 by omega]
  · by_cases hn : n < 32
    · simp [h0, h8, hn, hcode (by omega), show n - 1 ≠ 0 by omega, show n - 8 < 32 by omega]
    · simpa [hn, h0, hcode (by omega)] using hbuf (by omega)

theorem statusWord_phase (c : CoreState) : (statusWord c).getLsbD 0 = decide (c.phase = .done) :=
  statusWord_getLsbD c 0

theorem statusWord_err (c : CoreState) : (statusWord c).getLsbD 1 = c.err :=
  statusWord_getLsbD c 1

theorem statusWord_errCode (c : CoreState) : (statusWord c).extractLsb' 2 2 = c.errCode.bits := by
  refine BitVec.eq_of_getLsbD_eq fun n hn => ?_
  simp [statusWord_getLsbD, hn, show 2 + n ≠ 1 by omega, show 2 + n < 4 by omega]

theorem statusWord_bits_4_to_7 (c : CoreState) : (statusWord c).extractLsb' 4 4 = 0#4 := by
  refine BitVec.eq_of_getLsbD_eq fun n hn => ?_
  simp [statusWord_getLsbD, hn, show 4 + n ≠ 1 by omega, show 4 + n < 8 by omega]

theorem statusWord_bufLen (c : CoreState) : (statusWord c).extractLsb' 8 6 = BitVec.ofNat 6 c.bufLen := by
  refine BitVec.eq_of_getLsbD_eq fun n hn => ?_
  simp [statusWord_getLsbD, hn, show 8 + n ≠ 1 by omega, show ¬8 + n < 4 by omega]

theorem statusWord_bits_14_to_31 (c : CoreState) : (statusWord c).extractLsb' 14 18 = 0#18 := by
  refine BitVec.eq_of_getLsbD_eq fun n hn => ?_
  simp [statusWord_getLsbD, hn, show 14 + n ≠ 1 by omega, show ¬14 + n < 4 by omega, show 6 ≤ 14 + n - 8 by omega]

/-- Settles O39: RDSTAT answers `statusWord` of the kept core, and each field of it is read bit by bit. -/
theorem rdstatReadsEveryStatusField : Obligations.RdstatReadsEveryStatusField := by
  refine ⟨decode_commandWord 0x50, fun s hbuf => ⟨statusWord s.core, rfl, statusWord_phase _, statusWord_err _,
    ?code, statusWord_bits_4_to_7 _, ?buf, statusWord_bits_14_to_31 _⟩⟩
  case code =>
    rw [statusWord_errCode]
    cases s.core.errCode <;> rfl
  case buf =>
    rw [statusWord_bufLen, BitVec.toNat_ofNat, Nat.mod_eq_of_lt (by omega)]

/-- Settles O37: NOP accepts with the core it finds and the data 0. -/
theorem nopOnlyAnswers : Obligations.NopOnlyAnswers :=
  ⟨decode_commandWord 0x00, fun _ => rfl⟩

/-- Settles O38: INIT leaves the core in the reset state, whose STATUS has no bit set. -/
theorem initStartsANewMessage : Obligations.InitStartsANewMessage :=
  ⟨decode_commandWord 0x01, fun _ => ⟨CoreState.reset, rfl, rfl, rfl, rfl, rfl, rfl, rfl, rfl, rfl⟩⟩

/-- A 64-bit word is its two halves. -/
theorem halves_toNat (v : BitVec 64) :
    (v.extractLsb' 32 32).toNat * 2 ^ 32 + (v.extractLsb' 0 32).toNat = v.toNat := by
  have hhigh : v.toNat / 2 ^ 32 < 2 ^ 32 := by omega
  simp only [BitVec.extractLsb'_toNat, Nat.shiftRight_eq_div_pow, Nat.pow_zero, Nat.div_one, Nat.mod_eq_of_lt hhigh]
  exact Nat.div_add_mod' v.toNat (2 ^ 32)

/-- Settles O40: the answers are the halves of `LEN` by definition, and together they are all of it. -/
theorem rdlenReadsBothHalves : Obligations.RdlenReadsBothHalves :=
  ⟨fun arg => ⟨decode_commandWord 0x51 arg, decode_commandWord 0x52 arg⟩,
    fun s => ⟨_, _, rfl, rfl, rfl, rfl, halves_toNat s.core.len⟩⟩

end Sys2Proof.Machine
end

section
/-! SUPPORT. One step, by what the host presents (60_exceptions.md R177, 45_control.md R146). -/

namespace Sys2Proof.Machine

theorem step_of_nil {s : State} (h : s.inputs = []) : step s = .next s := by
  rw [step, stepPort, h]

theorem step_of_cons {s : State} {e : PortEvent} {es : List PortEvent} (h : s.inputs = e :: es) :
    step s = applyEvent e { s with inputs := es } := by
  rw [step, stepPort, h]

/-- A word of 40 bits is numbered alike in the opcode table and at the port. -/
theorem tableWord_width (w : Nat) : tableWord 40 w = BitVec.ofNat 40 w :=
  BitVec.eq_of_toNat_eq (by simp [tableWord])

theorem step_withFetchWord (s : State) (w : Nat) : step (s.withFetchWord 40 w) = runCommand (BitVec.ofNat 40 w) s := by
  rw [step_of_cons (withFetchWord_inputs s 40 w), tableWord_width]
  rfl

/-- Settles O48: the step runs the head of the queue, and a command word runs or is rejected as it decodes. -/
theorem stepRunsThePresentedEvent : Obligations.StepRunsThePresentedEvent := fun s =>
  ⟨step_of_nil, fun _ _ _ hin hd => (step_of_cons hin).trans (runCommand_ok hd _),
    fun _ _ _ hin hd => (step_of_cons hin).trans (runCommand_error hd _),
    fun _ hin => step_of_cons hin, fun _ _ hin => step_of_cons hin, step_withFetchWord s⟩

end Sys2Proof.Machine
end

section
/-! SUPPORT. Accepted or rejected: the opcode and the phase decide, and the error bits record the first rejection until
INIT or reset (60_exceptions.md R162 to R168). -/

namespace Sys2Proof.Machine

/-- A command that its phase accepts answers, with the data 0 unless it is a read. -/
theorem exec_accepted {i : Instr} {s : State} (ha : acceptedIn i s.core.phase = true) :
    ∃ (c : CoreState) (d : Word), exec i s = accept c d s ∧
      ((i ∈ [Instr.nop, .init, .final] ∨ i.pushBytes ≠ []) → d = 0) := by
  rw [exec_eq, if_pos ha]
  cases i with
  | nop | init | push1 | push2 | push3 | push4 | final => exact ⟨_, 0, rfl, fun _ => rfl⟩
  | rdword | rdbyte | rdstat | rdlenlo | rdlenhi => exact ⟨_, _, rfl, by simp [Instr.pushBytes]⟩

theorem exec_rejected {i : Instr} {s : State} (ha : ¬acceptedIn i s.core.phase = true) :
    exec i s = reject (if s.core.phase = .done then .sequence else .notDone) s :=
  (exec_eq i s).trans (if_neg ha)

/-- In all states of one phase a word has the same fate: always accepted, or always rejected with the same code. -/
theorem runCommand_accept_or_reject (c : CommandWord) (p : Phase) :
    (∀ s : State, s.core.phase = p → ∃ core d, runCommand c s = accept core d s) ∨
    ∃ e : ErrCode, e ≠ .noError ∧ ∀ s : State, s.core.phase = p → runCommand c s = reject e s := by
  cases hd : decode c with
  | error e => exact .inr ⟨.illegal, nofun, fun s _ => runCommand_error hd s⟩
  | ok i =>
    simp only [runCommand_ok hd]
    by_cases ha : acceptedIn i p = true
    · refine .inl fun s hs => ?_
      obtain ⟨core, d, h, -⟩ := exec_accepted (hs ▸ ha)
      exact ⟨core, d, h⟩
    · exact .inr ⟨if p = .done then .sequence else .notDone, by split <;> nofun,
        fun s hs => hs ▸ exec_rejected (hs ▸ ha)⟩

/-- Settles O42: a word that does not decode is ILLEGAL in either phase; any other is its command, which the phase
accepts or rejects. -/
theorem acceptanceDependsOnOpcodeAndPhase : Obligations.AcceptanceDependsOnOpcodeAndPhase := by
  intro c s
  cases hd : decode c with
  | error e => exact ⟨_, _, runCommand_error hd s, rfl, rfl, rfl⟩
  | ok i =>
    rw [runCommand_ok hd]
    by_cases ha : acceptedIn i s.core.phase = true
    · obtain ⟨core, d, h, hdata⟩ := exec_accepted ha
      exact ⟨_, _, h, rfl, rfl, (if_pos ha).mpr ⟨rfl, hdata⟩⟩
    · exact ⟨_, _, exec_rejected ha, rfl, rfl, (if_neg ha).mpr (by split <;> rfl)⟩

/-- Settles O43: a response that is not ok is a rejection's, and a rejection writes the error bits alone. -/
theorem rejectionChangesOnlyTheErrorBits : Obligations.RejectionChangesOnlyTheErrorBits := by
  intro c s t d h hrsp
  obtain hacc | ⟨e, he, hrej⟩ := runCommand_accept_or_reject c s.core.phase
  · obtain ⟨core, d', hacc⟩ := hacc s rfl
    obtain rfl := accept_next_iff.1 (hacc ▸ h)
    cases hrsp
  · obtain rfl := reject_next_iff.1 (hrej s rfl ▸ h)
    cases hrsp
    exact ⟨e, he, rfl, rfl⟩

/-- Once `ERR` is set, INIT is the only command word that clears it; any other leaves both error bits. -/
theorem runCommand_err {s : State} (hs : s.core.err = true) (c : CommandWord) :
    ∃ t, runCommand c s = .next t ∧
      ((decode c = .ok .init ∧ t.core.err = false ∧ t.core.errCode = .noError) ∨
        (decode c ≠ .ok .init ∧ t.core.err = true ∧ t.core.errCode = s.core.errCode)) := by
  obtain ⟨t, ht, hcases⟩ := runCommand_cases c s
  refine ⟨t, ht, ?_⟩
  obtain ⟨e, -, hcore, -, hinit, -⟩ | ⟨hd, hcore⟩ | ⟨hd, -, hcore⟩ | ⟨-, -, hcore, hinit, -⟩ |
    ⟨hcore, -, hinit, -⟩ := hcases
  · exact .inr ⟨hinit, by simp [hcore], by simp [hcore, hs]⟩
  · exact .inl ⟨hd, by rw [hcore]; rfl, by rw [hcore]; rfl⟩
  · exact .inr ⟨by simp [hd], by simp [hcore, hs], by simp [hcore]⟩
  · exact .inr ⟨hinit, by simp [hcore, hs], by simp [hcore]⟩
  · exact .inr ⟨hinit, by simp [hcore, hs], by simp [hcore]⟩

/-- Settles O44: reset and INIT clear the error bits and any other word keeps them; two states of one phase, whatever
their error bits, accept the same words. -/
theorem errorsStayUntilInitOrReset : Obligations.ErrorsStayUntilInitOrReset := by
  refine ⟨fun e s hs => ?cleared, fun c s b k => ?accepted⟩
  case cleared =>
    cases e with
    | reset | resetDuring => exact ⟨resetMachine s, rfl, by simp [CoreState.reset], fun _ => rfl, nofun⟩
    | command c =>
      obtain ⟨t, ht, ⟨hd, herr, hcode⟩ | ⟨hd, herr, hcode⟩⟩ := runCommand_err hs c
      · exact ⟨t, ht, by simp [herr, hd], fun _ => hcode, by simp [herr]⟩
      · exact ⟨t, ht, by simp [herr, hd], by simp [herr], fun _ => hcode⟩
  case accepted =>
    obtain hacc | ⟨e, -, hrej⟩ := runCommand_accept_or_reject c s.core.phase
    · obtain ⟨core, d, h⟩ := hacc s rfl
      obtain ⟨core', d', h'⟩ := hacc { s with core := { s.core with err := b, errCode := k } } rfl
      exact ⟨_, _, h, h', rfl⟩
    · exact ⟨_, _, hrej s rfl, hrej _ rfl, rfl⟩

/-- Settles O26: the counter is 64 bits wide, so adding the bytes wraps, and absorbing them leaves the error bits. -/
theorem counterWrapIsNoError : Obligations.CounterWrapIsNoError := by
  intro i s hi hp
  have hlen : (absorbBytes i.pushBytes s.core).len.toNat = (s.core.len.toNat + i.pushBytes.length) % 2 ^ 64 := by
    rw [absorbBytes_len, BitVec.toNat_add, BitVec.toNat_ofNat, Nat.add_mod_mod]
  exact ⟨_, (congrFun (exec_push hi) s).trans (pushCommand_absorb hp), hlen, BitVec.toNat_mul ..,
    absorbBytes_err .., absorbBytes_errCode .., rfl⟩

end Sys2Proof.Machine
end

section
/-! SUPPORT. Every event completes, and so every step of a core, alone or on a platform (60_exceptions.md R160, R169,
R175). -/

namespace Sys2Proof.Machine

theorem applyEvent_completes (e : PortEvent) (s : State) : ∃ t, applyEvent e s = .next t := by
  cases e with
  | command c =>
    obtain ⟨t, ht, -⟩ := runCommand_cases c s
    exact ⟨t, ht⟩
  | reset | resetDuring => exact ⟨_, rfl⟩

/-- Settles O53: an idle core stays as it is, and the event presented to any other completes. -/
theorem stepNeverStops : Obligations.StepNeverStops := by
  intro s
  cases hin : s.inputs with
  | nil => exact ⟨s, step_of_nil hin⟩
  | cons e es =>
    rw [step_of_cons hin]
    exact applyEvent_completes e _

theorem Platform.stepAt_eq_set {p : Platform} {n : Nat} {s t : State} (hs : p[n]? = some s) (ht : step s = .next t) :
    p.stepAt n = .next (p.set n t) := by
  simp [Platform.stepAt, hs, ht]

/-- Settles O57: the core's own step completes, and its result is written in that core's place alone. -/
theorem coresShareNoState : Obligations.CoresShareNoState := by
  intro p n s hs
  obtain ⟨t, ht⟩ := stepNeverStops s
  obtain ⟨hn, -⟩ := List.getElem?_eq_some_iff.1 hs
  exact ⟨p.set n t, t, Platform.stepAt_eq_set hs ht, ht, List.getElem?_set_self hn, List.length_set,
    fun k hk => List.getElem?_set_ne hk.symm⟩

end Sys2Proof.Machine
end

section
/-! SUPPORT. What one rising edge does, case by case, and what the port then shows (70_reset_and_hazards.md R180, R181,
R184 to R186, R191). -/

namespace Sys2Proof.Machine

/-- Settles O50: either reset event is `resetMachine`, whose fields are the reset core, no response, and the host's own
list as it was. -/
theorem resetAbandonsEverything : Obligations.ResetAbandonsEverything :=
  fun _ => ⟨rfl, fun _ => rfl⟩

theorem runCommand_responds (c : CommandWord) (s : State) :
    ∃ t, runCommand c s = .next t ∧ t.rsp.isSome = true := by
  obtain ⟨core, r, h⟩ := stepIsAFunctionOfCoreAndCommand s.core c
  exact ⟨⟨core, some r, s.inputs⟩, h s.rsp s.inputs, rfl⟩

namespace Handshake

theorem cmdReady_eq_true_iff {p : PortState} {rst : Bool} :
    cmdReady p rst = true ↔ rst = false ∧ p.inflight = none := by
  simp [cmdReady]

theorem rspValid_eq_true_iff {p : PortState} {rst : Bool} :
    rspValid p rst = true ↔ rst = false ∧ p.machine.rsp.isSome = true := by
  simp [rspValid]

theorem cmdReady_of_inflight {p : PortState} {f : CommandWord × Nat} (h : p.inflight = some f) (rst : Bool) :
    cmdReady p rst = false := by
  simp [cmdReady, h]

theorem Pins.presented_of_cmdValid {x : Pins} (h : x.cmdValid = true) :
    x.presented = some (commandWord x.cmdOp x.cmdArg) := if_pos h

theorem Pins.presented_of_not_cmdValid {x : Pins} (h : x.cmdValid = false) : x.presented = none := by
  simp [Pins.presented, h]

section EdgeEquations

variable {p : PortState} {x : Pins}

theorem edge_of_breaksHandshake (hb : breaksHandshake p x = true) : edge p x = .refused .handshakeViolation :=
  if_pos hb

theorem breaksHandshake_of_edge_next {q : PortState} (h : edge p x = .next q) : breaksHandshake p x = false := by
  by_contra hb
  rw [edge_of_breaksHandshake (by simpa using hb)] at h
  cases h

theorem edge_of_rst (hb : breaksHandshake p x = false) (hr : x.rst = true) :
    edge p x = .next (keepWaiting x (resetEdge p)) := by
  simp [edge, hb, hr]

theorem edge_of_inflight_succ (hb : breaksHandshake p x = false) (hr : x.rst = false) {c : CommandWord} {n : Nat}
    (hf : p.inflight = some (c, n + 1)) :
    edge p x = .next (keepWaiting x { p with inflight := some (c, n) }) := by
  simp [edge, hb, hr, hf]

theorem edge_of_inflight_zero (hb : breaksHandshake p x = false) (hr : x.rst = false) {c : CommandWord}
    (hf : p.inflight = some (c, 0)) {s : State} (hrun : runCommand c p.machine = .next s) :
    edge p x = .next (keepWaiting x { p with machine := s, inflight := none }) := by
  simp [edge, hb, hr, hf, hrun]

theorem edge_of_presented (hb : breaksHandshake p x = false) (hr : x.rst = false) (hf : p.inflight = none)
    {c : CommandWord} (hx : x.presented = some c) : edge p x = .next (acceptEdge c p) := by
  simp [edge, hb, hr, hf, hx]

theorem edge_of_not_presented (hb : breaksHandshake p x = false) (hr : x.rst = false) (hf : p.inflight = none)
    (hx : x.presented = none) : edge p x = .next (keepWaiting x p) := by
  simp [edge, hb, hr, hf, hx]

end EdgeEquations

theorem edges_cons_of_next {p p' : PortState} {x : Pins} (h : edge p x = .next p') (xs : List Pins) :
    edges (x :: xs) p = edges xs p' := by
  simp [edges, h]

/-- A run that is not refused has a first edge that is not refused. -/
theorem edges_cons_next {p q : PortState} {x : Pins} {xs : List Pins} (h : edges (x :: xs) p = .next q) :
    ∃ p', edge p x = .next p' ∧ edges xs p' = .next q := by
  unfold edges at h
  split at h
  · exact ⟨_, ‹_›, h⟩
  · cases h
  · cases h

/-- Settles O55, by induction on the edges still to pass: each but the last only counts down, and the last runs the
command, which always gives a response. -/
theorem acceptedCommandCompletes : Obligations.AcceptedCommandCompletes := by
  intro p q c n
  induction n generalizing p with
  | zero =>
    intro xs hf hlen hrst h
    obtain ⟨x, rfl⟩ := List.length_eq_one_iff.1 hlen
    obtain ⟨p', hedge, hrest⟩ := edges_cons_next h
    cases hrest
    obtain ⟨t, hrun, hrsp⟩ := runCommand_responds c p.machine
    have hdone := edge_of_inflight_zero (breaksHandshake_of_edge_next hedge) (hrst x (by simp)) hf hrun
    obtain rfl : keepWaiting x { p with machine := t, inflight := none } = q := by simpa [hdone] using hedge
    refine ⟨fun k hk => ?_, hrun, rfl, cmdReady_eq_true_iff.2 ⟨rfl, rfl⟩, rspValid_eq_true_iff.2 ⟨rfl, hrsp⟩⟩
    obtain rfl : k = 0 := by omega
    exact ⟨p, rfl, rfl, cmdReady_of_inflight hf false⟩
  | succ n ih =>
    intro xs hf hlen hrst h
    obtain ⟨x, xs, rfl⟩ := List.exists_cons_of_length_eq_add_one hlen
    obtain ⟨p', hedge, hrest⟩ := edges_cons_next h
    have hwait := edge_of_inflight_succ (breaksHandshake_of_edge_next hedge) (hrst x (by simp)) hf
    obtain rfl : keepWaiting x { p with inflight := some (c, n) } = p' := by simpa [hwait] using hedge
    obtain ⟨hbefore, hafter⟩ := ih _ xs rfl (by simpa using hlen) (fun y hy => hrst y (by simp [hy])) hrest
    refine ⟨fun k hk => ?_, hafter⟩
    cases k with
    | zero => exact ⟨p, rfl, rfl, cmdReady_of_inflight hf false⟩
    | succ k =>
      rw [List.take_succ_cons, edges_cons_of_next hwait]
      exact hbefore k (by omega)

/-- Settles O56: reset, acceptance, an idle edge, completion and one more cycle of the command in flight, each by its own
equation. -/
theorem portFollowsTheHandshake : Obligations.PortFollowsTheHandshake := by
  intro p x
  refine ⟨edge_of_breaksHandshake, fun hb => ?_⟩
  cases hr : x.rst with
  | true =>
    exact ⟨_, edge_of_rst hb hr, by simp +contextual [cmdReady, rspValid, Pins.presented, State.reset]⟩
  | false =>
    rcases hf : p.inflight with _ | ⟨c, _ | n⟩
    case none =>
      cases hv : x.cmdValid with
      | true =>
        refine ⟨_, edge_of_presented hb hr hf (Pins.presented_of_cmdValid hv), ?_⟩
        simp [cmdReady, hf, acceptEdge]
      | false =>
        refine ⟨_, edge_of_not_presented hb hr hf (Pins.presented_of_not_cmdValid hv), ?_⟩
        simp [hf]
    case some.zero =>
      obtain ⟨t, hrun, -⟩ := runCommand_responds c p.machine
      refine ⟨_, edge_of_inflight_zero hb hr hf hrun, ?_⟩
      simp +contextual [cmdReady_of_inflight hf, Pins.presented, hrun]
    case some.succ =>
      refine ⟨_, edge_of_inflight_succ hb hr hf, ?_⟩
      simp +contextual [cmdReady_of_inflight hf, Pins.presented]

end Handshake

end Sys2Proof.Machine
end

section
/-! SUPPORT. The initial hash value as square roots of the first eight primes (10_state.md R31; log entry 7). -/

namespace Sys2Proof.Machine

/-- `IV[i]` is the integer square root of `p_i * 2^64` without its integer part: computed, word by word. -/
theorem iv_toNat_eq_nthRoot_mod :
    ∀ i : Fin 8, iv[i].toNat = Nat.nthRoot 2 (kPrimes.getD i 0 * 2 ^ 64) % 2 ^ 32 := by
  decide

/-- Settles O18: `r` is the integer square root, whose bounds Mathlib proves of every number, and
`iv_toNat_eq_nthRoot_mod` reads `IV[i]` off its low 32 bits. -/
theorem initialHashIsSquareRootFractions : Obligations.InitialHashIsSquareRootFractions := fun i hi =>
  ⟨Nat.nthRoot 2 (kPrimes.getD i 0 * 2 ^ 64), Nat.pow_nthRoot_le (.inl two_ne_zero),
    Nat.lt_pow_nthRoot_add_one two_ne_zero _, iv_toNat_eq_nthRoot_mod ⟨i, hi⟩⟩

end Sys2Proof.Machine
end

section
/-! SUPPORT. The decoder vectors of 95_test_vectors.md D-DEC, each by the lemma of its opcode. -/

namespace Sys2Proof

open Sys2Proof.Machine

/-- A word whose OP is outside the map is ILLEGAL, whatever its ARG (30_encoding.md R67). -/
theorem decode_unlisted {c : CommandWord} {op : Byte} (h : opField c = op) (hop : op ∉ listedOpcodes) :
    decode c = .error (.illegal op) :=
  (decode_of_opField h).trans (decodeFields_unlisted hop _)

/-- Settles O7: OP of each word selects the lemma, and the operands are the word's bits as that lemma gives them. -/
theorem writtenOutWordsDecode : Obligations.WrittenOutWordsDecode :=
  ⟨decode_of_opField (op := 0x00) rfl, decode_of_opField (op := 0x01) rfl,
    decode_push1 rfl, decode_push4 rfl,
    decode_unlisted rfl (by decide), decode_unlisted rfl (by decide), decode_unlisted rfl (by decide),
    decode_rdword rfl, decode_rdbyte rfl, decode_rdbyte rfl,
    decode_unlisted rfl (by decide), decode_unlisted rfl (by decide)⟩

end Sys2Proof
end
